-- ==== Sys2Proof/Word.lean ====
section
/-! DEFINITION. The word types of the display master: bytes, the 64-bit host and result words, line levels, and a
register that the spec's own UNSET value may occupy. -/

namespace Sys2Proof

/-- A segment byte, a command byte or a wire byte: 8 bits (R11). -/
abbrev Byte := BitVec 8

/-- A host operation word (R61) or a result word (R69): 64 bits. -/
abbrev Word := BitVec 64

/-- The level of a line: `true` is high, written 1, and `false` is low, written 0 (R21). -/
abbrev Level := Bool

/-- A register whose power-on value is the spec's own third value UNSET (R21, R30); R33 says that representing UNSET as a
value apart from every driven value, and not as 0, is exact. -/
inductive Reg (α : Type) where
  | unset
  | val (a : α)
deriving DecidableEq, Repr

end Sys2Proof
end

