-- ==== Sys2Proof/Syntax.lean ====
section
/-! DEFINITION. The instructions: the 14 host operations and the 4 wire command bytes of spec/opcode_table.json, the two
encoded forms in which one reaches the machine, and the reasons the spec refuses one for. -/

namespace Sys2Proof

/-- A digit buffer: four segment bytes, index 0 leftmost (R26); the field names are those of the host word (R61). -/
structure Buffer where
  s0 : Byte
  s1 : Byte
  s2 : Byte
  s3 : Byte
deriving DecidableEq, Repr, Inhabited

/-- One constructor per row of spec/opcode_table.json. Integer operands are unbounded, as R64 (with D20) allows an
operation-level model; `Instr.wf` says which of them a host word can carry. -/
inductive Instr where
  /-- BUS_START (R83) -/
  | busStart
  /-- BUS_STOP (R88) -/
  | busStop
  /-- BUS_WRITE_BYTE b (R84) -/
  | busWriteByte (b : Byte)
  /-- CMD_SET_DATA_MODE auto or fixed (R100) -/
  | cmdSetDataMode (autoIncrement : Bool)
  /-- CMD_SET_BRIGHTNESS level, on or off (R103) -/
  | cmdSetBrightness (level : Int) (on : Bool)
  /-- CMD_WRITE_DIGITS base, s0, s1, s2, s3 (R106) -/
  | cmdWriteDigits (base : Byte) (segments : Buffer)
  /-- ENC_DIGIT v or blank (R121) -/
  | encDigit (value : Int) (blank : Bool)
  /-- ENC_NUMBER v, suppress or nosuppress (R124) -/
  | encNumber (value : Int) (suppress : Bool)
  /-- ENC_APPLY_INDICATOR s0, s1, s2, s3, d, p, on or off (R128) -/
  | encApplyIndicator (buffer : Buffer) (d p : Int) (enabled : Bool)
  /-- SES_INIT (R142) -/
  | sesInit
  /-- SES_SET_NUMBER v, blank or zero (R146) -/
  | sesSetNumber (value : Int) (withLeadingBlank : Bool)
  /-- SES_SET_NUMBER_IND v, on or off, mask (R149) -/
  | sesSetNumberInd (value : Int) (enabled : Bool) (mask : Byte)
  /-- SES_SET_RAW_SEGMENT i, byte (R153) -/
  | sesSetRawSegment (index : Int) (raw : Byte)
  /-- SES_SET_BRIGHTNESS level (R157) -/
  | sesSetBrightness (level : Int)
  /-- DATA_CMD_AUTO: the auto-increment data command on the wire (R71) -/
  | dataCmdAuto
  /-- DATA_CMD_FIXED: the fixed-address data command on the wire (R71) -/
  | dataCmdFixed
  /-- DISPLAY_CTRL 1000 N LLL: the display-control command on the wire (R72) -/
  | displayCtrl (on : Bool) (level : BitVec 3)
  /-- ADDR_CMD 1100 AAAA: the address command on the wire (R73) -/
  | addrCmd (a : BitVec 4)
deriving DecidableEq, Repr

/-- What stands before the master's decoder: a 64-bit host operation word (R61), or a wire command byte (R70). -/
inductive Request where
  | host (w : Word)
  | wire (b : Byte)
deriving DecidableEq, Repr

/-- The reasons for which the spec refuses an operation (R173). A refusal of the spec is not a stop of the machine: it
leaves a next state in which only the REFUSED mark is set (R15, R173; log entry 2). -/
inductive RefuseReason where
  /-- `OP` is 0x0 or 0xF (R67) -/
  | reservedOpcode
  /-- a reserved or unused field is non-zero (R67) -/
  | reservedField
  /-- a pin, command or session operation while `LIFE = Uninitialized` (R141) -/
  | notInitialized
  /-- SES_INIT while `LIFE = Ready` (R142) -/
  | alreadyInitialized
  /-- BUS_START in phase Open (R83) -/
  | startInOpenTransaction
  /-- BUS_WRITE_BYTE in phase Idle (R84) -/
  | byteOutsideTransaction
  /-- a command or session operation in phase Open (R109, R144) -/
  | commandInOpenTransaction
deriving DecidableEq, Repr

end Sys2Proof
end

