-- ==== Sys2Proof/Config.lean ====
section
/-! DEFINITION. The configuration of one block instance (R9, R10) and the values the spec leaves free. -/

namespace Sys2Proof

/-- The parameters of rule R9 that an instance fixes for its life (R10), all but `DIGITS`, which R9 calls fixed and no
parameter in practice (log entry 5). -/
structure Config where
  /-- `BRIGHT_MIN`: the least legal brightness -/
  brightMin : Int
  /-- `BRIGHT_MAX`: the greatest legal brightness -/
  brightMax : Int
  /-- `DEFAULT_BRIGHTNESS`: brightness after initialise -/
  defaultBrightness : Int
  /-- `BASE_ADDR`: the address-command byte the session uses -/
  baseAddr : Byte
  /-- `DATA_CMD_AUTO`: the auto-increment data command -/
  dataCmdAuto : Byte
  /-- `DATA_CMD_FIXED`: the fixed-address data command -/
  dataCmdFixed : Byte
  /-- `SEG_TABLE[0..9]`: the segment pattern of each digit -/
  segTable : Vector Byte 10
  /-- `BLANK_PATTERN`: the segment pattern of Blank -/
  blankPattern : Byte
  /-- `IND_DIGIT`: the digit index that carries the indicator in the session -/
  indDigit : Fin 4
  /-- `SUPPRESS_IND`: leading-zero suppression of SES_SET_NUMBER_IND -/
  suppressInd : Bool
  /-- `ACK_LEVEL`: the data-line level that means acknowledged -/
  ackLevel : Level
  /-- `DIO_RESTORE`: the level driven when the data line is restored to output after the sample -/
  dioRestore : Level
  /-- `T_SETTLE`: the minimum time after each transition, in a unit left open (R206) -/
  tSettle : Nat
deriving DecidableEq, Repr

/-- `DIGITS` (R9): "exactly 4". -/
def Config.digits : Nat := 4

/-- The greatest number four digits show (R124). -/
def Config.numberMax : Int := 9999

/-- `T_SETTLE` is OPEN in R9: nothing is known of its value (log entry 9). -/
opaque Config.openSettle : Nat

/-- The level of the data line at acknowledgement sample number `n` of a run when the state lists no answer of the device
for it: a free draw (R85; log entry 10). -/
opaque Config.freeDraw : Nat → Level

/-- What a read of `BUF` gives while it is UNSET, a read the spec says no rule makes (R33): free (log entry
6). -/
opaque Config.unsetBuffer : Nat → Buffer

end Sys2Proof
end

