-- ==== Sys2Proof/WellFormed.lean ====
section
/-! DEFINITION. Which instructions a host word (or wire byte) can carry. -/

namespace Sys2Proof

/-- The integers that the signed 16-bit field `V` spans (R64). -/
def fitsV (v : Int) : Bool := decide (-32768 ≤ v ∧ v ≤ 32767)

/-- The operands fit their fields (R64, R65; log entry 15), and ENC_DIGIT blank has value 0 (R67). -/
def Instr.wf : Instr → Bool
  | .busStart => true
  | .busStop => true
  | .busWriteByte _ => true
  | .cmdSetDataMode _ => true
  | .cmdSetBrightness level _ => fitsV level
  | .cmdWriteDigits _ _ => true
  | .encDigit value blank => fitsV value && (!blank || value == 0)
  | .encNumber value _ => fitsV value
  | .encApplyIndicator _ d p _ => decide (0 ≤ d ∧ d ≤ 3) && decide (0 ≤ p ∧ p ≤ 7)
  | .sesInit => true
  | .sesSetNumber value _ => fitsV value
  | .sesSetNumberInd value _ _ => fitsV value
  | .sesSetRawSegment index _ => fitsV index
  | .sesSetBrightness level => fitsV level
  | .dataCmdAuto => true
  | .dataCmdFixed => true
  | .displayCtrl _ _ => true
  | .addrCmd _ => true

end Sys2Proof
end

