-- ==== Sys2Proof/Decode.lean ====
section
/-! DEFINITION. The default configuration (R9), and the decoder of host operation words (R61 to R68) and of wire command bytes (R70 to R73), total and
rejecting by name, and after it the encoder. -/

namespace Sys2Proof

/-! ### The default configuration -/

/-- The configuration with every default of R9 (log entries 1 and 13). -/
def Config.standard : Config where
  brightMin := 0
  brightMax := 7
  defaultBrightness := 3
  baseAddr := 0xC0
  dataCmdAuto := 0x40
  dataCmdFixed := 0x44
  segTable := #v[0x3F, 0x06, 0x5B, 0x4F, 0x66, 0x6D, 0x7D, 0x07, 0x7F, 0x6F]
  blankPattern := 0x00
  indDigit := 1
  suppressInd := true
  ackLevel := false
  dioRestore := false
  tSettle := Config.openSettle

/-! ### The fields of a host word -/

/-- The fields of rule R61. -/
structure Fields where
  op : BitVec 4
  f0 : Bool
  f1 : Bool
  fr : BitVec 2
  a : Byte
  v : BitVec 16
  s : Buffer
deriving DecidableEq, Repr

/-- The fields of a host word, at the bit places of R61. -/
def splitWord (w : Word) : Fields where
  op := w.extractLsb' 0 4
  f0 := w.getLsbD 4
  f1 := w.getLsbD 5
  fr := w.extractLsb' 6 2
  a := w.extractLsb' 8 8
  v := w.extractLsb' 16 16
  s := ⟨w.extractLsb' 32 8, w.extractLsb' 40 8, w.extractLsb' 48 8, w.extractLsb' 56 8⟩

/-- A digit buffer packed into 32 bits, index 0 in the least significant byte (R44). -/
def packBuffer (b : Buffer) : BitVec 32 := b.s3 ++ b.s2 ++ b.s1 ++ b.s0

/-- The host word with these fields (R61). -/
def packWord (f : Fields) : Word :=
  packBuffer f.s ++ f.v ++ f.a ++ f.fr ++ BitVec.ofBool f.f1 ++ BitVec.ofBool f.f0 ++ f.op

/-! ### The decoder of host words -/

/-- Which fields an opcode uses beside `OP`: the "fields used" column of R62. -/
structure Uses where
  f0 : Bool := false
  f1 : Bool := false
  a : Bool := false
  v : Bool := false
  s : Bool := false
deriving DecidableEq, Repr

/-- The "fields used" column of the opcode map (R62). -/
def usedFields (op : BitVec 4) : Uses :=
  match op.toNat with
  | 0x3 => { a := true }
  | 0x4 => { f0 := true }
  | 0x5 => { v := true, f0 := true }
  | 0x6 => { a := true, s := true }
  | 0x7 => { v := true, f1 := true }
  | 0x8 => { v := true, f0 := true }
  | 0x9 => { s := true, a := true, f0 := true }
  | 0xB => { v := true, f0 := true }
  | 0xC => { v := true, f0 := true, a := true }
  | 0xD => { v := true, a := true }
  | 0xE => { v := true }
  | _ => {}

/-- The four segment bytes as zero: an unused buffer field. -/
def zeroBuffer : Buffer := ⟨0, 0, 0, 0⟩

/-- A bit outside the fields the opcode uses is set (R67, R68). -/
def unusedSet (f : Fields) : Bool :=
  let u := usedFields f.op
  (!u.f0 && f.f0) || (!u.f1 && f.f1) || (!u.a && f.a != 0) || (!u.v && f.v != 0) || (!u.s && f.s != zeroBuffer)

/-- The digit index of an indicator position, `A[5:4]` (R65). -/
def positionDigit (a : Byte) : Int := (a.extractLsb' 4 2).toNat

/-- The bit position of an indicator position, `A[2:0]` (R65). -/
def positionBit (a : Byte) : Int := (a.extractLsb' 0 3).toNat

/-- A reserved bit of an indicator position is set: `A[7:6]` or `A[3]` (R65). -/
def positionReserved (a : Byte) : Bool := a.extractLsb' 6 2 != 0 || a.getLsbD 3

/-- The operation an opcode and its fields stand for, by the opcode map (R62); none for the reserved opcodes 0x0 and 0xF. -/
def operation (f : Fields) : Option Instr :=
  match f.op.toNat with
  | 0x1 => some .busStart
  | 0x2 => some .busStop
  | 0x3 => some (.busWriteByte f.a)
  | 0x4 => some (.cmdSetDataMode f.f0)
  | 0x5 => some (.cmdSetBrightness f.v.toInt f.f0)
  | 0x6 => some (.cmdWriteDigits f.a f.s)
  | 0x7 => some (.encDigit f.v.toInt f.f1)
  | 0x8 => some (.encNumber f.v.toInt f.f0)
  | 0x9 => some (.encApplyIndicator f.s (positionDigit f.a) (positionBit f.a) f.f0)
  | 0xA => some .sesInit
  | 0xB => some (.sesSetNumber f.v.toInt f.f0)
  | 0xC => some (.sesSetNumberInd f.v.toInt f.f0 f.a)
  | 0xD => some (.sesSetRawSegment f.v.toInt f.a)
  | 0xE => some (.sesSetBrightness f.v.toInt)
  | _ => none

/-- The decoder of R68 on the fields of a word, its checks in the rule's order. -/
def decodeFields (f : Fields) : Except RefuseReason Instr :=
  match operation f with
  | none => .error .reservedOpcode
  | some i =>
    if f.fr ≠ 0 then .error .reservedField
    else if unusedSet f then .error .reservedField
    else if f.op = 0x7 ∧ f.f1 = true ∧ f.v ≠ 0 then .error .reservedField
    else if f.op = 0x9 ∧ positionReserved f.a = true then .error .reservedField
    else .ok i

/-- The decoder of host operation words (R68). -/
def decodeHost (w : Word) : Except RefuseReason Instr := decodeFields (splitWord w)

/-! ### Wire command bytes -/

/-- The display-control byte `0x80 | (on << 3) | level` (R72). -/
def displayByte (on : Bool) (level : Byte) : Byte := 0x80 ||| ((BitVec.ofBool on).setWidth 8 <<< 3) ||| level

/-- The address-command byte `0xC0 | AAAA` (R73). -/
def addressByte (a : BitVec 4) : Byte := 0xC0 ||| a.setWidth 8

/-- The wire command a byte is, if it is one: the instance's two data commands (R71), a byte `1000 NLLL` (R72) or a byte
`1100 AAAA` (R73). -/
def decodeWire (c : Config) (b : Byte) : Option Instr :=
  if b = c.dataCmdAuto then some .dataCmdAuto
  else if b = c.dataCmdFixed then some .dataCmdFixed
  else if b.extractLsb' 4 4 = 0x8 then some (.displayCtrl (b.getLsbD 3) (b.extractLsb' 0 3))
  else if b.extractLsb' 4 4 = 0xC then some (.addrCmd (b.extractLsb' 0 4))
  else none

/-- The instruction a request holds, if it holds one. -/
def decode (c : Config) : Request → Option Instr
  | .host w => (decodeHost w).toOption
  | .wire b => decodeWire c b

/-! ### The encoder -/

/-- The 16-bit field that carries an integer operand (R64). -/
def fieldV (v : Int) : BitVec 16 := BitVec.ofInt 16 v

/-- An indicator position in `A`: `{0b00, d[1:0], 0, p[2:0]}` (R65, R75). -/
def packPosition (d p : Int) : Byte := (0 : BitVec 2) ++ BitVec.ofInt 2 d ++ (0 : BitVec 1) ++ BitVec.ofInt 3 p

/-- A host word's fields, all zero but for the opcode and the operands given: software writes 0 in unused fields (R67). -/
def hostFields (op : BitVec 4) (f0 f1 : Bool := false) (a : Byte := 0) (v : BitVec 16 := 0) (s : Buffer := zeroBuffer) :
    Fields := ⟨op, f0, f1, 0, a, v, s⟩

/-- What carries an instruction to the machine: a host word's fields (R62), or a wire byte (R70 to R73). -/
def encode (c : Config) : Instr → Request
  | .busStart => .host (packWord (hostFields 0x1))
  | .busStop => .host (packWord (hostFields 0x2))
  | .busWriteByte b => .host (packWord (hostFields 0x3 (a := b)))
  | .cmdSetDataMode auto => .host (packWord (hostFields 0x4 (f0 := auto)))
  | .cmdSetBrightness level on => .host (packWord (hostFields 0x5 (v := fieldV level) (f0 := on)))
  | .cmdWriteDigits base segments => .host (packWord (hostFields 0x6 (a := base) (s := segments)))
  | .encDigit value blank => .host (packWord (hostFields 0x7 (v := fieldV value) (f1 := blank)))
  | .encNumber value suppress => .host (packWord (hostFields 0x8 (v := fieldV value) (f0 := suppress)))
  | .encApplyIndicator buffer d p enabled =>
    .host (packWord (hostFields 0x9 (s := buffer) (a := packPosition d p) (f0 := enabled)))
  | .sesInit => .host (packWord (hostFields 0xA))
  | .sesSetNumber value blank => .host (packWord (hostFields 0xB (v := fieldV value) (f0 := blank)))
  | .sesSetNumberInd value enabled mask =>
    .host (packWord (hostFields 0xC (v := fieldV value) (f0 := enabled) (a := mask)))
  | .sesSetRawSegment index raw => .host (packWord (hostFields 0xD (v := fieldV index) (a := raw)))
  | .sesSetBrightness level => .host (packWord (hostFields 0xE (v := fieldV level)))
  | .dataCmdAuto => .wire c.dataCmdAuto
  | .dataCmdFixed => .wire c.dataCmdFixed
  | .displayCtrl on level => .wire (displayByte on (level.setWidth 8))
  | .addrCmd a => .wire (addressByte a)

/-! ### Table words -/

/-- The request that an opcode-table word of `nbits` bits is: a byte that is a wire command of the instance, or else a host
word whose bits above `nbits` are 0. No byte is both: a wire command has a non-zero bit in [7:6], where a host word holds
`FR` (R67, R70). -/
def tableRequest (c : Config) (nbits w : Nat) : Request :=
  if nbits ≤ 8 ∧ (decodeWire c (BitVec.ofNat 8 w)).isSome then .wire (BitVec.ofNat 8 w) else .host (BitVec.ofNat 64 w)

/-- The instruction the decoder reads from an opcode-table word, under the default configuration. -/
def decodeTableWord (nbits w : Nat) : Option Instr := decode Config.standard (tableRequest Config.standard nbits w)

end Sys2Proof
end

