-- ==== Sys2Proof/Machine/Params.lean ====
section
/-! DEFINITION. What the spec says of a configuration's values (R9, R70, R120, R122). -/

namespace Sys2Proof.Machine

/-- The number of set bits of a byte. -/
def popcount (b : Byte) : Nat := (List.range 8).countP (fun i => b.getLsbD i)

/-- A pattern meets the source's bound: 2 to 7 segments lit, the indicator bit clear (R120). -/
def patternOk (b : Byte) : Bool := decide (2 ≤ popcount b ∧ popcount b ≤ 7) && !b.getLsbD 7

/-- The class of a wire byte: its bits [7:6] (R70). -/
def byteClass (b : Byte) : BitVec 2 := b.extractLsb' 6 2

/-- A configuration within what the spec states of its values: the brightness range is 0..7 (R9, R24, R103, R157), the default
brightness is 3 or 4 (R9), the base address is in the address class (R111), the two data commands are in the data class and
differ (R70, R71), every pattern meets the bound (R120), and Blank is all segments off (R122) (log entry 16). -/
def configOk (c : Config) : Bool :=
  c.brightMin == 0 && c.brightMax == 7
    && (c.defaultBrightness == 3 || c.defaultBrightness == 4)
    && byteClass c.baseAddr == 3
    && byteClass c.dataCmdAuto == 1
    && byteClass c.dataCmdFixed == 1
    && c.dataCmdAuto != c.dataCmdFixed
    && c.segTable.toList.all patternOk
    && c.blankPattern == 0

end Sys2Proof.Machine
end

