-- ==== Sys2Proof/Machine/Operands.lean ====
section
/-! DEFINITION. The operand forms: buffer bytes, digit indices, brightness levels and number values. -/

namespace Sys2Proof.Machine

/-- Byte `j` of a digit buffer. -/
def bufferByte (b : Buffer) (j : Fin 4) : Byte :=
  match j with
  | 0 => b.s0
  | 1 => b.s1
  | 2 => b.s2
  | 3 => b.s3

/-- A digit buffer with byte `j` replaced. -/
def withByte (b : Buffer) (j : Fin 4) (x : Byte) : Buffer :=
  match j with
  | 0 => { b with s0 := x }
  | 1 => { b with s1 := x }
  | 2 => { b with s2 := x }
  | 3 => { b with s3 := x }

/-- The bytes of a digit buffer in wire order, index 0 first (R43). -/
def bufferBytes (b : Buffer) : List Byte := [b.s0, b.s1, b.s2, b.s3]

/-- A digit index in 0..3, if the integer is one (R154, R128). -/
def digitIndex (i : Int) : Option (Fin 4) := if 0 ≤ i ∧ i ≤ 3 then some (Fin.ofNat 4 i.toNat) else none

/-- A bit position in 0..7, if the integer is one (R128). -/
def bitPosition (p : Int) : Option Nat := if 0 ≤ p ∧ p ≤ 7 then some p.toNat else none

/-- A level is in the instance's brightness range, `BRIGHT_MIN` to `BRIGHT_MAX` (R9); it is checked and never adjusted
(R104). -/
def brightnessOk (c : Config) (level : Int) : Bool := decide (c.brightMin ≤ level ∧ level ≤ c.brightMax)

/-- A decimal digit in 0..9, if the integer is one (R121). -/
def decimalDigit (value : Int) : Option (Fin 10) :=
  if 0 ≤ value ∧ value ≤ 9 then some (Fin.ofNat 10 value.toNat) else none

/-- A number that four digits show, if the integer is one (R124). -/
def fourDigitNumber (value : Int) : Option Nat :=
  if 0 ≤ value ∧ value ≤ Config.numberMax then some value.toNat else none

/-- The segment pattern of a decimal digit (R120). -/
def segPattern (c : Config) (d : Fin 10) : Byte := c.segTable.get d

/-- Forces the bits of `mask` in `b` on or off (R128, R149). -/
def forceBits (b mask : Byte) (enabled : Bool) : Byte := if enabled then b ||| mask else b &&& ~~~mask

end Sys2Proof.Machine
end

