-- ==== Sys2Proof/Machine/State.lean ====
section
/-! DEFINITION. The state of one block instance (R20, R30), with the host's and the device's sides of its interface, the
outcomes of host operations, and the reset state. -/

namespace Sys2Proof.Machine

/-- A line event (R13, R31): `C0` and `C1` are `clk false` and `clk true`, `D0` and `D1` are `dio false` and `dio true`,
`DZ` is `release`, and `S0` and `S1` are `sample false` and `sample true`. -/
inductive Event where
  | clk (v : Level)
  | dio (v : Level)
  | release
  | sample (v : Level)
deriving DecidableEq, Repr

/-- The session's lifecycle state `LIFE` (R23). -/
inductive Life where
  | uninitialized
  | ready
deriving DecidableEq, Repr

/-- The bus phase (R25). -/
inductive Phase where
  | idle
  | opened
  | none
deriving DecidableEq, Repr

/-- The architected errors, and there are no others (R170). -/
inductive OpError where
  /-- an acknowledgement was not observed on byte `k` of transaction `t` of the operation -/
  | busError (t k : Nat)
  /-- a brightness level, a digit index or a digit value is outside its range -/
  | invalidArgument
  /-- a number cannot be represented in 4 digits -/
  | outOfRange
deriving DecidableEq, Repr

/-- The result value of an operation that ends in Ok (R14, R69). -/
inductive OpValue where
  /-- no value -/
  | unit
  /-- whether the acknowledgement was observed -/
  | ack (observed : Bool)
  /-- a segment byte -/
  | byte (b : Byte)
  /-- a digit buffer -/
  | buffer (b : Buffer)
deriving DecidableEq, Repr

/-- The outcome of a host operation: one of three kinds (R14). -/
inductive OpOutcome where
  | ok (v : OpValue)
  | error (e : OpError)
  | refusal (r : RefuseReason)
deriving DecidableEq, Repr

/-- What the host issued: an operation, or a reserved word that is none (R67). -/
inductive Issued where
  | op (i : Instr)
  | reserved (w : Word)
deriving DecidableEq, Repr

/-- The state. `clkOut` to `refused` are the fields of R30's table; `cfg` is the instance's configuration, which R9 makes an
argument of the model and R10 fixes for the instance's life (log entry 1); `inbox` and `history` are the host's side (R8,
R19; log entry 8), `draws` and `drawn` the device's (R8, R85; log entry 10). -/
structure State where
  /-- the parameters of this instance (R9, R10) -/
  cfg : Config
  /-- `CLK_OUT`: the level driven on the clock line (R21) -/
  clkOut : Reg Level
  /-- `DIO_OE`: the direction of the data line, true for output (R21) -/
  dioOe : Reg Bool
  /-- `DIO_OUT`: the level driven on the data line while it is output (R21) -/
  dioOut : Reg Level
  /-- `LIFE` (R23) -/
  life : Life
  /-- `BRIGHT`: the session's brightness (R24) -/
  bright : Reg Int
  /-- `BUF[0..3]`: the session's digit buffer (R26) -/
  buf : Reg Buffer
  /-- `TRACE`: the line events, oldest first (R31) -/
  trace : List Event
  /-- `REFUSED`: the sticky mark of a refusal (R15) -/
  refused : Bool
  /-- the requests issued and not yet taken, the next first (R7, R50) -/
  inbox : List Request
  /-- what was taken, each paired with its outcome, oldest first (R19) -/
  history : List (Issued × OpOutcome)
  /-- the device's answers to come, the next first; a sample past the end of the list takes a free draw (R85) -/
  draws : List Level
  /-- the number of samples taken, the argument of the next free draw -/
  drawn : Nat
deriving DecidableEq, Repr

/-- The machine has no fault: every error of the block is architected and is reported in the result word of a next state
(R170, R175), and no rule names a condition that stops the block (log entry 11). -/
inductive Fault where
deriving DecidableEq, Repr

/-- The reasons for which a step answers no next state. -/
inductive Refusal where
  /-- Raised by an arm of `exec` whose instruction has no meaning yet: safe. No arm raises it. -/
  | notModelled (mnemonic : String)
  /-- Raised by `step` for a wire byte that is no row of the opcode table (outside R71 to R73): no rule gives it a meaning as
  an instruction (R74; log entry 12). Safe. -/
  | notWireCommand (b : Byte)
deriving DecidableEq, Repr

/-- The machine at power-on: the last column of R30's table, for the configuration `c` (R200). -/
def State.powerOn (c : Config) : State where
  cfg := c
  clkOut := .unset
  dioOe := .unset
  dioOut := .unset
  life := .uninitialized
  bright := .unset
  buf := .unset
  trace := []
  refused := false
  inbox := []
  history := []
  draws := []
  drawn := 0

/-- The machine right after reset, with the default configuration (R9, R30, R200). -/
def State.reset : State := State.powerOn Config.standard

end Sys2Proof.Machine
end

