-- ==== Sys2Proof/Machine/Ops.lean ====
section
/-! DEFINITION. The shared operations: the line primitives (R13), the bus sequences (R82 to R88), the transaction helper
(R102), and the three ways in which an operation ends (R14). The settle wait after each transition has no effect on state
and is represented by nothing (R13). -/

namespace Sys2Proof.Machine

/-! ### The lines -/

/-- The bus phase, derived from the pin registers (R25). -/
def phase (s : State) : Phase :=
  match s.clkOut, s.dioOe, s.dioOut with
  | .val c, .val oe, .val d =>
    if c = true ∧ oe = true ∧ d = true then .idle else if s.life = .ready then .opened else .none
  | _, _, _ => .none

/-- The level of the clock line (R22). -/
def clkLine (s : State) : Reg Level := s.clkOut

/-- The level of the data line while the block decides it (R22); UNSET while it does not. -/
def dioLine (s : State) : Reg Level :=
  match s.dioOe with
  | .val true => s.dioOut
  | _ => .unset

/-- `Drive(CLK, v)` (R13). -/
def driveClk (v : Level) (s : State) : State := { s with clkOut := .val v, trace := s.trace ++ [.clk v] }

/-- `Drive(DIO, v)` (R13). -/
def driveDio (v : Level) (s : State) : State :=
  { s with dioOe := .val true, dioOut := .val v, trace := s.trace ++ [.dio v] }

/-- `Release(DIO)` (R13). -/
def releaseDio (s : State) : State := { s with dioOe := .val false, trace := s.trace ++ [.release] }

/-- The device's answer at the sample `n` samples from now: the one the state lists, else a free draw (R85). DESIGN CHOICE: the
free draw is one constant of the sample number, so two instances whose lists are used up get equal levels at equal sample
numbers, where R55 and R85 relate them in no way; a claim about several instances lists their answers apart (log entry 10). -/
def drawAt (s : State) (n : Nat) : Level := s.draws.getD n (Config.freeDraw (s.drawn + n))

/-- `Sample(DIO)` (R13): the level drawn, and the state after. -/
def sampleDio (s : State) : Level × State :=
  (drawAt s 0, { s with trace := s.trace ++ [.sample (drawAt s 0)], draws := s.draws.drop 1, drawn := s.drawn + 1 })

/-! ### The bus sequences -/

/-- WRITE_BIT (R82). -/
def writeBit (v : Level) (s : State) : State := driveClk true (driveDio v (driveClk false s))

/-- READ_ACK (R82): whether the acknowledgement was observed (R86), and the state after. -/
def readAck (s : State) : Bool × State :=
  let (level, s1) := sampleDio (driveClk true (releaseDio (driveClk false s)))
  (level == s.cfg.ackLevel, driveDio s.cfg.dioRestore (driveClk false s1))

/-- The body of BUS_START (R83). -/
def startSeq (s : State) : State := driveDio false (driveClk true (driveDio true s))

/-- The body of BUS_STOP (R88). -/
def stopSeq (s : State) : State := driveDio true (driveClk true (driveDio false (driveClk false s)))

/-- The body of BUS_WRITE_BYTE (R84): bit 0 first, then the acknowledgement. -/
def byteSeq (b : Byte) (s : State) : Bool × State :=
  readAck ((List.range 8).foldl (fun t i => writeBit (b.getLsbD i) t) s)

/-- The byte loop of TXN (R102) from byte index `k`: the index of the first unacknowledged byte, if there is one. -/
def sendBytes (k : Nat) (bytes : List Byte) (s : State) : Option Nat × State :=
  match bytes with
  | [] => (none, s)
  | b :: rest =>
    match byteSeq b s with
    | (true, s1) => sendBytes (k + 1) rest s1
    | (false, s1) => (some k, s1)

/-- The transaction helper TXN (R102): none for ok, the failing byte's index for fail; every path ends with STOP_SEQ. -/
def txn (bytes : List Byte) (s : State) : Option Nat × State :=
  let (failed, s1) := sendBytes 0 bytes (startSeq s)
  (failed, stopSeq s1)

/-! ### How an operation ends -/

/-- Pairs what was issued with its outcome (R19). -/
def answer (i : Issued) (o : OpOutcome) (s : State) : State := { s with history := s.history ++ [(i, o)] }

/-- The operation returns Ok with a value (R14). -/
def finish (i : Instr) (v : OpValue) (s : State) : Host.Outcome State Fault Refusal := .next (answer (.op i) (.ok v) s)

/-- Entering an error (R175): it is reported in the result of the operation that raised it; no state is saved, no mode or
mask changes and no vector is taken, and there is no return from it (R176). -/
def raise (i : Instr) (e : OpError) (s : State) : Host.Outcome State Fault Refusal :=
  .next (answer (.op i) (.error e) s)

/-- A refusal (R15, R173): no result word, no event, no change of the block's state; the REFUSED mark is set. -/
def refuseIssued (i : Issued) (r : RefuseReason) (s : State) : Host.Outcome State Fault Refusal :=
  .next { answer i (.refusal r) s with refused := true }

/-- A refused operation. -/
def refuse (i : Instr) (r : RefuseReason) (s : State) : Host.Outcome State Fault Refusal := refuseIssued (.op i) r s

/-! ### What operations share -/

/-- The checks of every command and session operation but SES_INIT (R109, R141, R144), in the order of R174. -/
def commandGate (i : Instr) (s : State) (body : Host.Outcome State Fault Refusal) : Host.Outcome State Fault Refusal :=
  if s.life ≠ .ready then refuse i .notInitialized s
  else if phase s ≠ .idle then refuse i .commandInOpenTransaction s
  else body

/-- A byte write (R84), with its checks: the byte a host operation or a wire command carries. -/
def byteWrite (i : Instr) (b : Byte) (s : State) : Host.Outcome State Fault Refusal :=
  if s.life ≠ .ready then refuse i .notInitialized s
  else if phase s ≠ .opened then refuse i .byteOutsideTransaction s
  else
    match byteSeq b s with
    | (ack, s1) => finish i (.ack ack) s1

/-- Transaction `t` of an operation: BusError at the first unacknowledged byte (R108), else the operation goes on. -/
def transact (i : Instr) (t : Nat) (bytes : List Byte) (s : State)
    (andThen : State → Host.Outcome State Fault Refusal) : Host.Outcome State Fault Refusal :=
  match txn bytes s with
  | (some k, s1) => raise i (.busError t k) s1
  | (none, s1) => andThen s1

/-- The digit buffer that `BUF` holds; free while it is UNSET, which no run reaches in an operation that reads it (R33). -/
def readBuffer (s : State) : Buffer :=
  match s.buf with
  | .val b => b
  | .unset => Config.unsetBuffer s.drawn

/-- WRITE_DISPLAY (R145). -/
def writeDisplay (i : Instr) (b : Buffer) (s : State) : Host.Outcome State Fault Refusal :=
  transact i 0 [s.cfg.dataCmdAuto] s fun s1 =>
    transact i 1 (s.cfg.baseAddr :: bufferBytes b) s1 fun s2 =>
      finish i .unit { s2 with buf := .val b }

end Sys2Proof.Machine
end

