-- ==== Sys2Proof/Machine/Bus.lean ====
section
/-! DEFINITION. The Bus Driver operations (spec/40_bus_driver.md). -/

namespace Sys2Proof.Machine

/-- BUS_START (R83). -/
def execBusStart (s : State) : Host.Outcome State Fault Refusal :=
  if s.life ≠ .ready then refuse .busStart .notInitialized s
  else if phase s ≠ .idle then refuse .busStart .startInOpenTransaction s
  else finish .busStart .unit (startSeq s)

/-- BUS_STOP (R88): performed in both phases. -/
def execBusStop (s : State) : Host.Outcome State Fault Refusal :=
  if s.life ≠ .ready then refuse .busStop .notInitialized s
  else finish .busStop .unit (stopSeq s)

/-- BUS_WRITE_BYTE (R84): a missing acknowledgement is a result, never an error (R171). -/
def execBusWriteByte (b : Byte) (s : State) : Host.Outcome State Fault Refusal := byteWrite (.busWriteByte b) b s

end Sys2Proof.Machine
end

