-- ==== Sys2Proof/Machine/Command.lean ====
section
/-! DEFINITION. The Command Protocol operations (spec/41_command_protocol.md). -/

namespace Sys2Proof.Machine

/-- CMD_SET_DATA_MODE (R100). -/
def execCmdSetDataMode (autoIncrement : Bool) (s : State) : Host.Outcome State Fault Refusal :=
  commandGate (.cmdSetDataMode autoIncrement) s <|
    transact (.cmdSetDataMode autoIncrement) 0 [if autoIncrement then s.cfg.dataCmdAuto else s.cfg.dataCmdFixed] s
      (finish (.cmdSetDataMode autoIncrement) .unit)

/-- CMD_SET_BRIGHTNESS (R103): no session state is written. -/
def execCmdSetBrightness (level : Int) (on : Bool) (s : State) : Host.Outcome State Fault Refusal :=
  commandGate (.cmdSetBrightness level on) s <|
    if brightnessOk s.cfg level = false then raise (.cmdSetBrightness level on) .invalidArgument s
    else
      transact (.cmdSetBrightness level on) 0 [displayByte on (BitVec.ofInt 8 level)] s
        (finish (.cmdSetBrightness level on) .unit)

/-- CMD_WRITE_DIGITS (R106): the base address is sent verbatim, and the session buffer is not written. -/
def execCmdWriteDigits (base : Byte) (segments : Buffer) (s : State) : Host.Outcome State Fault Refusal :=
  commandGate (.cmdWriteDigits base segments) s <|
    transact (.cmdWriteDigits base segments) 0 (base :: bufferBytes segments) s
      (finish (.cmdWriteDigits base segments) .unit)

end Sys2Proof.Machine
end

