-- ==== Sys2Proof/Machine/Encoder.lean ====
section
/-! DEFINITION. The Segment Encoder operations (spec/42_segment_encoder.md): pure functions of their operands and the
configuration, performed in any state (R123). -/

namespace Sys2Proof.Machine

/-- The segment byte of a decimal digit or Blank (R121). -/
def encodeDigit (c : Config) (value : Int) (blank : Bool) : Except OpError Byte :=
  if blank then .ok c.blankPattern
  else
    match decimalDigit value with
    | none => .error .invalidArgument
    | some d => .ok (segPattern c d)

/-- Decimal digit `d[i]` of a number, `i` = 0 for the thousands (R124). -/
def digitOf (n : Nat) (i : Fin 4) : Fin 10 :=
  match i with
  | 0 => Fin.ofNat 10 (n / 1000)
  | 1 => Fin.ofNat 10 (n / 100 % 10)
  | 2 => Fin.ofNat 10 (n / 10 % 10)
  | 3 => Fin.ofNat 10 (n % 10)

/-- Digit `i` is a leading zero: it and every digit to its left are zero, and it is not the ones place (R124, R126). -/
def isLeading (n : Nat) (i : Fin 4) : Bool :=
  decide (i.val ≤ 2) && (List.finRange 4).all (fun j => decide (i < j) || digitOf n j == 0)

/-- The pattern at buffer index `i` of a number (R124). -/
def numberByte (c : Config) (n : Nat) (suppress : Bool) (i : Fin 4) : Byte :=
  if suppress && isLeading n i then c.blankPattern else segPattern c (digitOf n i)

/-- ENCODE_NUMBER (R124): the buffer, or OutOfRange. -/
def encodeNumber (c : Config) (value : Int) (suppress : Bool) : Except OpError Buffer :=
  match fourDigitNumber value with
  | none => .error .outOfRange
  | some n =>
    .ok ⟨numberByte c n suppress 0, numberByte c n suppress 1, numberByte c n suppress 2, numberByte c n suppress 3⟩

/-- The buffer with bit `p` of byte `d` set or cleared (R128). -/
def applyIndicator (b : Buffer) (d p : Int) (enabled : Bool) : Except OpError Buffer :=
  match digitIndex d, bitPosition p with
  | some j, some n => .ok (withByte b j (forceBits (bufferByte b j) (1#8 <<< n) enabled))
  | _, _ => .error .invalidArgument

/-- ENC_DIGIT (R121). -/
def execEncDigit (value : Int) (blank : Bool) (s : State) : Host.Outcome State Fault Refusal :=
  match encodeDigit s.cfg value blank with
  | .ok b => finish (.encDigit value blank) (.byte b) s
  | .error e => raise (.encDigit value blank) e s

/-- ENC_NUMBER (R124). -/
def execEncNumber (value : Int) (suppress : Bool) (s : State) : Host.Outcome State Fault Refusal :=
  match encodeNumber s.cfg value suppress with
  | .ok b => finish (.encNumber value suppress) (.buffer b) s
  | .error e => raise (.encNumber value suppress) e s

/-- ENC_APPLY_INDICATOR (R128). -/
def execEncApplyIndicator (buffer : Buffer) (d p : Int) (enabled : Bool) (s : State) :
    Host.Outcome State Fault Refusal :=
  match applyIndicator buffer d p enabled with
  | .ok b => finish (.encApplyIndicator buffer d p enabled) (.buffer b) s
  | .error e => raise (.encApplyIndicator buffer d p enabled) e s

end Sys2Proof.Machine
end

