-- ==== Sys2Proof/Machine/Session.lean ====
section
/-! DEFINITION. The Display Session operations (spec/43_display_session.md). -/

namespace Sys2Proof.Machine

/-- SES_INIT (R142): the lines go to the idle level; no byte is sent. -/
def execSesInit (s : State) : Host.Outcome State Fault Refusal :=
  if s.life = .ready then refuse .sesInit .alreadyInitialized s
  else
    finish .sesInit .unit
      { driveDio true (driveClk true s) with
        bright := .val s.cfg.defaultBrightness, buf := .val zeroBuffer, life := .ready }

/-- SES_SET_NUMBER (R146). -/
def execSesSetNumber (value : Int) (withLeadingBlank : Bool) (s : State) : Host.Outcome State Fault Refusal :=
  commandGate (.sesSetNumber value withLeadingBlank) s <|
    match encodeNumber s.cfg value withLeadingBlank with
    | .error e => raise (.sesSetNumber value withLeadingBlank) e s
    | .ok b => writeDisplay (.sesSetNumber value withLeadingBlank) b s

/-- SES_SET_NUMBER_IND (R149): the masked bits of the indicator digit are forced on or off. -/
def execSesSetNumberInd (value : Int) (enabled : Bool) (mask : Byte) (s : State) : Host.Outcome State Fault Refusal :=
  commandGate (.sesSetNumberInd value enabled mask) s <|
    match encodeNumber s.cfg value s.cfg.suppressInd with
    | .error e => raise (.sesSetNumberInd value enabled mask) e s
    | .ok b =>
      writeDisplay (.sesSetNumberInd value enabled mask)
        (withByte b s.cfg.indDigit (forceBits (bufferByte b s.cfg.indDigit) mask enabled)) s

/-- SES_SET_RAW_SEGMENT (R153): one byte of a copy of `BUF` is replaced, and the whole buffer is written. -/
def execSesSetRawSegment (index : Int) (raw : Byte) (s : State) : Host.Outcome State Fault Refusal :=
  commandGate (.sesSetRawSegment index raw) s <|
    match digitIndex index with
    | none => raise (.sesSetRawSegment index raw) .invalidArgument s
    | some j => writeDisplay (.sesSetRawSegment index raw) (withByte (readBuffer s) j raw) s

/-- SES_SET_BRIGHTNESS (R157): sent with the display on, and stored when acknowledged. -/
def execSesSetBrightness (level : Int) (s : State) : Host.Outcome State Fault Refusal :=
  commandGate (.sesSetBrightness level) s <|
    if brightnessOk s.cfg level = false then raise (.sesSetBrightness level) .invalidArgument s
    else
      transact (.sesSetBrightness level) 0 [displayByte true (BitVec.ofInt 8 level)] s fun s1 =>
        finish (.sesSetBrightness level) .unit { s1 with bright := .val level }

end Sys2Proof.Machine
end

