-- ==== Sys2Proof/Machine/Wire.lean ====
section
/-! DEFINITION. The wire command bytes (R70 to R73) as instructions: the master writes the command's byte in the open
transaction, as BUS_WRITE_BYTE does (log entry 3). What the spec states of their effect on the device (R101, R105) is read
off the transaction log in Machine/Device.lean. -/

namespace Sys2Proof.Machine

/-- DATA_CMD_AUTO: the instance's auto-increment data command (R71, R9). -/
def execDataCmdAuto (s : State) : Host.Outcome State Fault Refusal := byteWrite .dataCmdAuto s.cfg.dataCmdAuto s

/-- DATA_CMD_FIXED: the instance's fixed-address data command (R71, R9). -/
def execDataCmdFixed (s : State) : Host.Outcome State Fault Refusal := byteWrite .dataCmdFixed s.cfg.dataCmdFixed s

/-- DISPLAY_CTRL: `0x80 | (N << 3) | LLL` (R72). -/
def execDisplayCtrl (on : Bool) (level : BitVec 3) (s : State) : Host.Outcome State Fault Refusal :=
  byteWrite (.displayCtrl on level) (displayByte on (level.setWidth 8)) s

/-- ADDR_CMD: `0xC0 | AAAA` (R73). -/
def execAddrCmd (a : BitVec 4) (s : State) : Host.Outcome State Fault Refusal :=
  byteWrite (.addrCmd a) (addressByte a) s

end Sys2Proof.Machine
end

