-- ==== Sys2Proof/Machine/Dispatch.lean ====
section
/-! DEFINITION. One arm per instruction. -/

namespace Sys2Proof.Machine

/-- The meaning of an instruction. -/
def exec (i : Instr) (s : State) : Host.Outcome State Fault Refusal :=
  match i with
  | .busStart => Sys2Proof.Machine.execBusStart s
  | .busStop => Sys2Proof.Machine.execBusStop s
  | .busWriteByte b => Sys2Proof.Machine.execBusWriteByte b s
  | .cmdSetDataMode auto => Sys2Proof.Machine.execCmdSetDataMode auto s
  | .cmdSetBrightness level on => Sys2Proof.Machine.execCmdSetBrightness level on s
  | .cmdWriteDigits base segments => Sys2Proof.Machine.execCmdWriteDigits base segments s
  | .encDigit value blank => Sys2Proof.Machine.execEncDigit value blank s
  | .encNumber value suppress => Sys2Proof.Machine.execEncNumber value suppress s
  | .encApplyIndicator buffer d p enabled => Sys2Proof.Machine.execEncApplyIndicator buffer d p enabled s
  | .sesInit => Sys2Proof.Machine.execSesInit s
  | .sesSetNumber value blank => Sys2Proof.Machine.execSesSetNumber value blank s
  | .sesSetNumberInd value enabled mask => Sys2Proof.Machine.execSesSetNumberInd value enabled mask s
  | .sesSetRawSegment index raw => Sys2Proof.Machine.execSesSetRawSegment index raw s
  | .sesSetBrightness level => Sys2Proof.Machine.execSesSetBrightness level s
  | .dataCmdAuto => Sys2Proof.Machine.execDataCmdAuto s
  | .dataCmdFixed => Sys2Proof.Machine.execDataCmdFixed s
  | .displayCtrl on level => Sys2Proof.Machine.execDisplayCtrl on level s
  | .addrCmd a => Sys2Proof.Machine.execAddrCmd a s

end Sys2Proof.Machine
end

