-- ==== Sys2Proof/Machine/Fetch.lean ====
section
/-! DEFINITION. How the master takes the host's next request. The block has no program counter and fetches no
instructions (R28, R53): it takes one operation at a time, in the order in which the host issues them (R7, R50). -/

namespace Sys2Proof.Machine

/-- What stands at the head of the inbox, decoded, with the state in which it was taken. -/
inductive Fetched where
  /-- nothing is pending: the block waits (R201) -/
  | waiting
  /-- an operation -/
  | instr (i : Instr) (s : State)
  /-- a reserved host word (R67) -/
  | reserved (w : Word) (r : RefuseReason) (s : State)
  /-- a wire byte that is no wire command (R74) -/
  | notWireCommand (b : Byte)

/-- Takes the next request. -/
def fetch (s : State) : Fetched :=
  match s.inbox with
  | [] => .waiting
  | .host w :: rest =>
    match decodeHost w with
    | .ok i => .instr i { s with inbox := rest }
    | .error r => .reserved w r { s with inbox := rest }
  | .wire b :: rest =>
    match decodeWire s.cfg b with
    | some i => .instr i { s with inbox := rest }
    | none => .notWireCommand b

/-- The state with a request placed where the next step takes it. -/
def issueNext (r : Request) (s : State) : State := { s with inbox := r :: s.inbox }

/-- The state with a request issued after those that wait (R50). -/
def issue (r : Request) (s : State) : State := { s with inbox := s.inbox ++ [r] }

end Sys2Proof.Machine
end

