-- ==== Sys2Proof/Machine/Step.lean ====
section
/-! DEFINITION. One step: the master takes the host's next request and runs it to completion (R7). -/

namespace Sys2Proof.Machine

/-- One step. With nothing issued the block waits, unchanged (R19, R201; log entry 7); a reserved host word is refused as R67 says. -/
def step (s : State) : Host.Outcome State Fault Refusal :=
  match fetch s with
  | .waiting => .next s
  | .instr i s1 => exec i s1
  | .reserved w r s1 => refuseIssued (.reserved w) r s1
  | .notWireCommand b => .refused (.notWireCommand b)

/-- `s` with an opcode-table word placed where the next step takes it. -/
def State.withFetchWord (s : State) (nbits w : Nat) : State := issueNext (tableRequest s.cfg nbits w) s

end Sys2Proof.Machine
end

