-- ==== Sys2Proof/Machine/Asm.lean ====
section
/-! DEFINITION. The assembler syntax of host operations (R75): the text of a line, the line it is read as, and the operation
that the line stands for (log entry 17). -/

namespace Sys2Proof.Machine

/-- The mnemonics (R75). -/
inductive Mnemonic where
  | busStart | busStop | busWriteByte
  | cmdSetDataMode | cmdSetBrightness | cmdWriteDigits
  | encDigit | encNumber | encApplyIndicator
  | sesInit | sesSetNumber | sesSetNumberInd | sesSetRawSegment | sesSetBrightness
deriving DecidableEq, Repr

/-- The operand words (R75). -/
inductive Keyword where
  | auto | fixed | on | off | blank | suppress | nosuppress | zero
deriving DecidableEq, Repr

/-- An operand (R75). -/
inductive AsmOperand where
  | num (n : Int)
  | word (k : Keyword)
deriving DecidableEq, Repr

/-- A line (R75). -/
structure AsmLine where
  mnemonic : Mnemonic
  operands : List AsmOperand
deriving DecidableEq, Repr

/-- A number that a byte field holds. -/
def asmByte (n : Int) : Option Byte := if 0 ≤ n ∧ n ≤ 255 then some (BitVec.ofInt 8 n) else none

/-- Four numbers that byte fields hold. -/
def asmBuffer (n0 n1 n2 n3 : Int) : Option Buffer :=
  match asmByte n0, asmByte n1, asmByte n2, asmByte n3 with
  | some b0, some b1, some b2, some b3 => some ⟨b0, b1, b2, b3⟩
  | _, _, _, _ => none

/-- A pair of operand words that stand for true and false. -/
def asmFlag (yes no k : Keyword) : Option Bool := if k = yes then some true else if k = no then some false else none

/-- The instruction that a line stands for, if it is one (R75). -/
def assemble (l : AsmLine) : Option Instr :=
  match l.mnemonic, l.operands with
  | .busStart, [] => some .busStart
  | .busStop, [] => some .busStop
  | .busWriteByte, [.num b] => (asmByte b).map .busWriteByte
  | .cmdSetDataMode, [.word k] => (asmFlag .auto .fixed k).map .cmdSetDataMode
  | .cmdSetBrightness, [.num level, .word k] => (asmFlag .on .off k).map (.cmdSetBrightness level)
  | .cmdWriteDigits, [.num base, .num n0, .num n1, .num n2, .num n3] =>
    (asmByte base).bind fun b => (asmBuffer n0 n1 n2 n3).map (.cmdWriteDigits b)
  | .encDigit, [.num v] => some (.encDigit v false)
  | .encDigit, [.word k] => if k = .blank then some (.encDigit 0 true) else none
  | .encNumber, [.num v, .word k] => (asmFlag .suppress .nosuppress k).map (.encNumber v)
  | .encApplyIndicator, [.num n0, .num n1, .num n2, .num n3, .num d, .num p, .word k] =>
    (asmBuffer n0 n1 n2 n3).bind fun b => (asmFlag .on .off k).map (.encApplyIndicator b d p)
  | .sesInit, [] => some .sesInit
  | .sesSetNumber, [.num v, .word k] => (asmFlag .blank .zero k).map (.sesSetNumber v)
  | .sesSetNumberInd, [.num v, .word k, .num m] =>
    (asmFlag .on .off k).bind fun e => (asmByte m).map (.sesSetNumberInd v e)
  | .sesSetRawSegment, [.num i, .num b] => (asmByte b).map (.sesSetRawSegment i)
  | .sesSetBrightness, [.num level] => some (.sesSetBrightness level)
  | _, _ => none

/-- The operand that a byte is written as. -/
def numOf (b : Byte) : AsmOperand := .num b.toNat

/-- The operands that a buffer is written as. -/
def numsOf (b : Buffer) : List AsmOperand := [numOf b.s0, numOf b.s1, numOf b.s2, numOf b.s3]

/-- The operand word for a flag. -/
def wordOf (yes no : Keyword) (flag : Bool) : AsmOperand := .word (if flag then yes else no)

/-- The line that an instruction is written as (R75); a wire command has none. -/
def disassemble : Instr → Option AsmLine
  | .busStart => some ⟨.busStart, []⟩
  | .busStop => some ⟨.busStop, []⟩
  | .busWriteByte b => some ⟨.busWriteByte, [numOf b]⟩
  | .cmdSetDataMode auto => some ⟨.cmdSetDataMode, [wordOf .auto .fixed auto]⟩
  | .cmdSetBrightness level on => some ⟨.cmdSetBrightness, [.num level, wordOf .on .off on]⟩
  | .cmdWriteDigits base segments => some ⟨.cmdWriteDigits, numOf base :: numsOf segments⟩
  | .encDigit value blank => some ⟨.encDigit, [if blank then .word .blank else .num value]⟩
  | .encNumber value suppress => some ⟨.encNumber, [.num value, wordOf .suppress .nosuppress suppress]⟩
  | .encApplyIndicator buffer d p enabled =>
    some ⟨.encApplyIndicator, numsOf buffer ++ [.num d, .num p, wordOf .on .off enabled]⟩
  | .sesInit => some ⟨.sesInit, []⟩
  | .sesSetNumber value blank => some ⟨.sesSetNumber, [.num value, wordOf .blank .zero blank]⟩
  | .sesSetNumberInd value enabled mask =>
    some ⟨.sesSetNumberInd, [.num value, wordOf .on .off enabled, numOf mask]⟩
  | .sesSetRawSegment index raw => some ⟨.sesSetRawSegment, [.num index, numOf raw]⟩
  | .sesSetBrightness level => some ⟨.sesSetBrightness, [.num level]⟩
  | .dataCmdAuto => none
  | .dataCmdFixed => none
  | .displayCtrl _ _ => none
  | .addrCmd _ => none

/-! ### The text of a line -/

/-- A mnemonic's spelling (R75). -/
def Mnemonic.text : Mnemonic → String
  | .busStart => "BUS_START"
  | .busStop => "BUS_STOP"
  | .busWriteByte => "BUS_WRITE_BYTE"
  | .cmdSetDataMode => "CMD_SET_DATA_MODE"
  | .cmdSetBrightness => "CMD_SET_BRIGHTNESS"
  | .cmdWriteDigits => "CMD_WRITE_DIGITS"
  | .encDigit => "ENC_DIGIT"
  | .encNumber => "ENC_NUMBER"
  | .encApplyIndicator => "ENC_APPLY_INDICATOR"
  | .sesInit => "SES_INIT"
  | .sesSetNumber => "SES_SET_NUMBER"
  | .sesSetNumberInd => "SES_SET_NUMBER_IND"
  | .sesSetRawSegment => "SES_SET_RAW_SEGMENT"
  | .sesSetBrightness => "SES_SET_BRIGHTNESS"

/-- The mnemonics, in the order of R75. -/
def Mnemonic.all : List Mnemonic :=
  [.busStart, .busStop, .busWriteByte, .cmdSetDataMode, .cmdSetBrightness, .cmdWriteDigits, .encDigit, .encNumber,
    .encApplyIndicator, .sesInit, .sesSetNumber, .sesSetNumberInd, .sesSetRawSegment, .sesSetBrightness]

/-- An operand word's spelling (R75). -/
def Keyword.text : Keyword → String
  | .auto => "auto"
  | .fixed => "fixed"
  | .on => "on"
  | .off => "off"
  | .blank => "blank"
  | .suppress => "suppress"
  | .nosuppress => "nosuppress"
  | .zero => "zero"

/-- The operand words. -/
def Keyword.all : List Keyword := [.auto, .fixed, .on, .off, .blank, .suppress, .nosuppress, .zero]

/-- A character's value as a digit. -/
def digitValue (c : Char) : Option Nat :=
  if '0' ≤ c ∧ c ≤ '9' then some (c.toNat - '0'.toNat)
  else if 'a' ≤ c ∧ c ≤ 'f' then some (c.toNat - 'a'.toNat + 10)
  else if 'A' ≤ c ∧ c ≤ 'F' then some (c.toNat - 'A'.toNat + 10)
  else none

/-- Digits of a base, read after those that make `acc`. -/
def readDigits (base acc : Nat) : List Char → Option Nat
  | [] => some acc
  | c :: cs =>
    match digitValue c with
    | some d => if d < base then readDigits base (base * acc + d) cs else none
    | none => none

/-- A number: hexadecimal after `0x`, else decimal (R75). -/
def readUnsigned : List Char → Option Nat
  | [] => none
  | '0' :: 'x' :: c :: cs => readDigits 16 0 (c :: cs)
  | c :: cs => readDigits 10 0 (c :: cs)

/-- A number, which a minus sign may lead. -/
def readNumber : List Char → Option Int
  | '-' :: cs => (readUnsigned cs).map fun n => -(n : Int)
  | cs => (readUnsigned cs).map fun n => (n : Int)

/-- An operand: an operand word or a number. -/
def readOperand (cs : List Char) : Option AsmOperand :=
  match Keyword.all.find? (fun k => k.text.toList == cs) with
  | some k => some (.word k)
  | none => (readNumber cs).map .num

/-- A space or a tab. -/
def isSpace (c : Char) : Bool := c == ' ' || c == '\t'

/-- A text without the spaces around it. -/
def trimSpaces (cs : List Char) : List Char := ((cs.dropWhile isSpace).reverse.dropWhile isSpace).reverse

/-- The parts of a text between commas. -/
def splitCommas : List Char → List (List Char)
  | [] => [[]]
  | c :: cs =>
    if c = ',' then [] :: splitCommas cs
    else
      match splitCommas cs with
      | part :: parts => (c :: part) :: parts
      | [] => [[c]]

/-- The operands of a list of parts, if every part is one. -/
def readOperands : List (List Char) → Option (List AsmOperand)
  | [] => some []
  | part :: parts =>
    match readOperand (trimSpaces part), readOperands parts with
    | some x, some xs => some (x :: xs)
    | _, _ => none

/-- Reads a line: a mnemonic, then operands with commas between them; what follows a semicolon is a comment (R75). -/
def readLine (text : String) : Option AsmLine :=
  let body := trimSpaces (text.toList.takeWhile (· != ';'))
  let name := body.takeWhile (fun c => !isSpace c)
  let rest := trimSpaces (body.drop name.length)
  match Mnemonic.all.find? (fun m => m.text.toList == name), if rest = [] then some [] else readOperands (splitCommas rest) with
  | some m, some xs => some ⟨m, xs⟩
  | _, _ => none

/-- The instruction that a line of text stands for (R75). -/
def assembleText (text : String) : Option Instr := (readLine text).bind assemble

end Sys2Proof.Machine
end

