-- ==== Sys2Proof/Machine/Flags.lean ====
section
/-! DEFINITION. The block has no status flags (R29): an operation's status stands in its result word, whose layout is R69. -/

namespace Sys2Proof.Machine

/-- The fields of the result word (R69). -/
structure ResultFields where
  status : BitVec 4 := 0
  ack : Bool := false
  beK : BitVec 4 := 0
  beT : Bool := false
  byte : Byte := 0
  buf : Buffer := zeroBuffer
deriving DecidableEq, Repr

/-- The result word with these fields, every other bit 0 (R69). -/
def packResult (f : ResultFields) : Word :=
  packBuffer f.buf ++ (0 : BitVec 8) ++ f.byte ++ (0 : BitVec 3) ++ BitVec.ofBool f.beT ++ f.beK ++ (0 : BitVec 3)
    ++ BitVec.ofBool f.ack ++ f.status

/-- The result fields of a value: status 0 (R69, R170). -/
def valueFields : OpValue → ResultFields
  | .unit => {}
  | .ack observed => { ack := observed }
  | .byte b => { byte := b }
  | .buffer b => { buf := b }

/-- The result fields of an error: its status, and for BusError the failing transaction and byte (R69, R170). -/
def errorFields : OpError → ResultFields
  | .busError t k => { status := 1, beK := BitVec.ofNat 4 k, beT := t != 0 }
  | .invalidArgument => { status := 2 }
  | .outOfRange => { status := 3 }

/-- The result word of an outcome; a refused operation returns none (R69). -/
def resultWord : OpOutcome → Option Word
  | .ok v => some (packResult (valueFields v))
  | .error e => some (packResult (errorFields e))
  | .refusal _ => none

/-- The outcome of the last operation taken, if there was one. -/
def lastOutcome (s : State) : Option OpOutcome := s.history.getLast?.map Prod.snd

/-- The result word that the last operation returned, if it returned one. -/
def lastResult (s : State) : Option Word := (lastOutcome s).bind resultWord

end Sys2Proof.Machine
end

