-- ==== Sys2Proof/Machine/Observe.lean ====
section
/-! DEFINITION. What is read off a run (R19): the event groups and the transaction log of a trace (R47), the start and stop
conditions on the wire (R89), the least duration of a trace (R206, R213), and the observation itself. -/

namespace Sys2Proof.Machine

/-! ### Event groups -/

/-- The event groups of R47. -/
inductive Group where
  | init
  | start
  | byte (b : Byte) (s : Level)
  | stop
deriving DecidableEq, Repr

/-- The events of bit `v` of a byte: `C0 D<v> C1` (R47). -/
def bitEvents (v : Level) : List Event := [.clk false, .dio v, .clk true]

/-- The eight bits of a byte in wire order, bit 0 first (R42). -/
def wireBits (b : Byte) : List Level := (List.range 8).map (fun i => b.getLsbD i)

/-- The events of a group (R47); `restore` is `DIO_RESTORE`. -/
def Group.events (restore : Level) : Group → List Event
  | .init => [.clk true, .dio true]
  | .start => [.dio true, .clk true, .dio false]
  | .byte b s =>
    (wireBits b).flatMap bitEvents ++ [.clk false, .release, .clk true, .sample s, .clk false, .dio restore]
  | .stop => [.clk false, .dio false, .clk true, .dio true]

/-- The events of a list of groups, in order. -/
def groupEvents (restore : Level) (gs : List Group) : List Event := gs.flatMap (Group.events restore)

/-! ### Reading the groups back -/

/-- Reads `n` bits off a trace: their levels, and what is left. -/
def readBits : Nat → List Event → Option (List Level × List Event)
  | 0, es => some ([], es)
  | n + 1, .clk false :: .dio v :: .clk true :: es =>
    match readBits n es with
    | some (vs, rest) => some (v :: vs, rest)
    | none => none
  | _ + 1, _ => none

/-- The byte with these bits, bit 0 first (R42). -/
def byteOfBits (vs : List Level) : Byte := BitVec.ofNat 8 (vs.foldr (fun v n => 2 * n + v.toNat) 0)

/-- Reads a BYTE group off a trace. -/
def readByte (restore : Level) (es : List Event) : Option (Group × List Event) :=
  match readBits 8 es with
  | some (vs, .clk false :: .release :: .clk true :: .sample s :: .clk false :: .dio r :: rest) =>
    if r = restore then some (.byte (byteOfBits vs) s, rest) else none
  | _ => none

/-- Reads the first group off a trace. -/
def readGroup (restore : Level) (es : List Event) : Option (Group × List Event) :=
  match es with
  | .clk true :: .dio true :: rest => some (.init, rest)
  | .dio true :: .clk true :: .dio false :: rest => some (.start, rest)
  | .clk false :: .dio false :: .clk true :: .dio true :: rest => some (.stop, rest)
  | _ => readByte restore es

/-- Reads at most `fuel` groups off a trace: none where it is no concatenation of groups. -/
def readGroups (restore : Level) : Nat → List Event → Option (List Group)
  | _, [] => some []
  | 0, _ :: _ => none
  | fuel + 1, e :: es =>
    match readGroup restore (e :: es) with
    | some (g, rest) => (readGroups restore fuel rest).map (g :: ·)
    | none => none

/-- The groups whose concatenation a trace is, if it is one (R47): a group has at least one event. -/
def parseTrace (restore : Level) (es : List Event) : Option (List Group) := readGroups restore es.length es

/-! ### The transaction log -/

/-- The bytes of a transaction, each with whether it was acknowledged (R47). -/
abbrev Transaction := List (Byte × Bool)

/-- The transaction log: the closed transactions, and the open one if any (R47). -/
structure TxLog where
  closed : List Transaction
  opened : Option Transaction
deriving DecidableEq, Repr

/-- One group's entry in the log (R47). None for a start inside an open transaction or a byte outside one: the rules have no
such trace, since both are refused (R83, R84). -/
def logGroup (ackLevel : Level) (l : TxLog) : Group → Option TxLog
  | .init => some l
  | .start =>
    match l.opened with
    | none => some { l with opened := some [] }
    | some _ => none
  | .byte b s =>
    match l.opened with
    | some t => some { l with opened := some (t ++ [(b, s == ackLevel)]) }
    | none => none
  | .stop =>
    match l.opened with
    | some t => some ⟨l.closed ++ [t], none⟩
    | none => some l

/-- The log after a list of groups. -/
def logGroups (ackLevel : Level) : TxLog → List Group → Option TxLog
  | l, [] => some l
  | l, g :: gs => (logGroup ackLevel l g).bind (fun l1 => logGroups ackLevel l1 gs)

/-- The log with no transaction. -/
def TxLog.empty : TxLog := ⟨[], none⟩

/-- The transaction log of a state: a function of its trace (R47). -/
def txlog (s : State) : Option TxLog :=
  (parseTrace s.cfg.dioRestore s.trace).bind (logGroups s.cfg.ackLevel TxLog.empty)

/-! ### Start and stop conditions on the wire -/

/-- A start condition (the data line falls while the clock is high) or a stop condition (it rises while the clock is high) (R80). -/
inductive Condition where
  | start
  | stop
deriving DecidableEq, Repr

/-- The conditions that the master makes over a list of events, from a clock level and a data line that it drives to a level
or has released (R22, R89). -/
def conditions (clk : Level) (dio : Option Level) : List Event → List Condition
  | [] => []
  | .clk v :: es => conditions v dio es
  | .dio v :: es =>
    if clk = true ∧ dio = some (!v) then (if v then .stop else .start) :: conditions clk (some v) es
    else conditions clk (some v) es
  | .release :: es => conditions clk none es
  | .sample _ :: es => conditions clk dio es

/-! ### Time -/

/-- Every event but a sample is a transition (R31). -/
def isTransition : Event → Bool
  | .sample _ => false
  | _ => true

/-- The number of transitions in a list of events. -/
def transitions (es : List Event) : Nat := es.countP isTransition

/-- The least time a list of events takes: a settle wait after each transition, a lower bound only (R206, R213). -/
def leastDuration (c : Config) (es : List Event) : Nat := transitions es * c.tSettle

/-! ### The observation of a run -/

/-- The block state: the fields of R30's table that are the block's own. -/
structure BlockState where
  clkOut : Reg Level
  dioOe : Reg Bool
  dioOut : Reg Level
  life : Life
  bright : Reg Int
  buf : Reg Buffer
deriving DecidableEq, Repr

/-- The block state of a state. -/
def blockState (s : State) : BlockState := ⟨s.clkOut, s.dioOe, s.dioOut, s.life, s.bright, s.buf⟩

/-- The observation of a run (R19): the operations with their outcomes, the line trace, the block state. -/
structure Observation where
  operations : List (Issued × OpOutcome)
  trace : List Event
  block : BlockState
deriving DecidableEq, Repr

/-- The observation of the run that ends in a state. -/
def observe (s : State) : Observation := ⟨s.history, s.trace, blockState s⟩

/-- A state in which a run has ended: the host has issued nothing further, and the block is quiescent (R19). -/
def quiescent (s : State) : Bool := s.inbox.isEmpty

end Sys2Proof.Machine
end

