-- ==== Sys2Proof/Machine/Device.lean ====
section
/-! DEFINITION. What the spec states of the controller's side of a closed transaction (R32, R101, R105): its data mode is
decided by the last data command it accepted, and its display's on/off and brightness by the last display-control command.
The controller's internals are out of scope (R6 item 4), no step reads this file, and nothing of it is State: it is a function
of the transaction log (log entry 4). -/

namespace Sys2Proof.Machine

/-- The controller's data modes (R71, R101). -/
inductive DataMode where
  | autoIncrement
  | fixed
deriving DecidableEq, Repr

/-- What is known of the controller; none where the spec does not say. -/
structure ControllerView where
  mode : Option DataMode
  display : Option (Bool × BitVec 3)
deriving DecidableEq, Repr

/-- Nothing is known: at power-on (R203), and after traffic whose effect the spec does not give. -/
def ControllerView.unknown : ControllerView := ⟨none, none⟩

/-- The view after a closed transaction. An acknowledged data command alone in its transaction decides the mode (R32, R101),
an acknowledged display-control command alone decides the display (R105). A digit write acknowledged in full leaves both (R105)
if it begins at `BASE_ADDR` and the mode is known to be auto-increment: at any other base, or in a mode that may be fixed, the
spec forbids an assumption (R41, R101). After any other transaction nothing is known (R74, R101). -/
def viewAfter (c : Config) (v : ControllerView) (t : Transaction) : ControllerView :=
  match t with
  | [(b, true)] =>
    match decodeWire c b with
    | some .dataCmdAuto => { v with mode := some .autoIncrement }
    | some .dataCmdFixed => { v with mode := some .fixed }
    | some (.displayCtrl on level) => { v with display := some (on, level) }
    | _ => ControllerView.unknown
  | [(b, true), (_, true), (_, true), (_, true), (_, true)] =>
    if b = c.baseAddr ∧ v.mode = some .autoIncrement then v else ControllerView.unknown
  | _ => ControllerView.unknown

/-- The view after the closed transactions of a log. DESIGN CHOICE: it presumes that the controller loses no power during the
run, of which R185 lets nothing be assumed (log entry 4). -/
def controllerView (c : Config) (l : TxLog) : ControllerView := l.closed.foldl (viewAfter c) ControllerView.unknown

end Sys2Proof.Machine
end

