-- ==== Sys2Proof/Machine/Instances.lean ====
section
/-! DEFINITION. Several block instances (R10, R55, R182): one state per pin pair, sharing nothing, their steps interleaved
freely (log entry 14). How the free draws of two instances relate is log entry 10. -/

namespace Sys2Proof.Machine

/-- A step of instance `n`: none if there is no such instance or its step answers no next state. -/
def stepInstance (n : Nat) (blocks : List State) : Option (List State) :=
  match blocks[n]? with
  | none => none
  | some s =>
    match step s with
    | .next s1 => some (blocks.set n s1)
    | .fault _ => none
    | .refused _ => none

end Sys2Proof.Machine
end

