-- ==== Sys2Proof/Safety.lean ====
section
/-! DEFINITION. What claims about runs are stated in: the invariant of reachable states, and the runs on which a claim may
rest (R15). -/

namespace Sys2Proof.Machine

/-- `s1` is what a step of `s` answers. -/
def StepsTo (s s1 : State) : Prop := step s = .next s1

/-- The states that steps reach from a state, with the host issuing requests between them (R7, R8). -/
inductive Reaches (s : State) : State → Prop where
  | here : Reaches s s
  | issued {t : State} (r : Request) : Reaches s t → Reaches s (issue r t)
  | stepped {t u : State} : Reaches s t → StepsTo t u → Reaches s u

/-- A run that ended with no refusal: the premise of a claim about a run (R15). -/
def CleanRun (s t : State) : Prop := Reaches s t ∧ t.refused = false

/-- All pin and session registers are as at power-on, and no line has moved (R30, R202). -/
def AtPowerOn (s : State) : Prop :=
  s.life = .uninitialized ∧ s.clkOut = .unset ∧ s.dioOe = .unset ∧ s.dioOut = .unset ∧ s.bright = .unset
    ∧ s.buf = .unset ∧ s.trace = []

/-- The session is Ready, every register is set, the data line is output, and the brightness is in 0..7 (R24, R33). -/
def InService (s : State) : Prop :=
  s.life = .ready ∧ (∃ v, s.clkOut = .val v) ∧ s.dioOe = .val true ∧ (∃ v, s.dioOut = .val v)
    ∧ (∃ n, s.bright = .val n ∧ 0 ≤ n ∧ n ≤ 7) ∧ (∃ b, s.buf = .val b)

/-- Between operations the block is as at power-on or in service (R33). -/
def RegistersSet (s : State) : Prop := AtPowerOn s ∨ InService s

/-- The trace is a concatenation of event groups that form a transaction log, and a transaction is open exactly in phase
Open (R25, R47). -/
def TraceLogged (s : State) : Prop :=
  ∃ gs l, s.trace = groupEvents s.cfg.dioRestore gs ∧ logGroups s.cfg.ackLevel TxLog.empty gs = some l
    ∧ (l.opened.isSome = true ↔ phase s = .opened)

/-- The mark is set exactly if the record holds a refusal (R15, R173). -/
def RefusalsRecorded (s : State) : Prop :=
  s.refused = true ↔ ∃ (i : Issued) (r : RefuseReason), (i, .refusal r) ∈ s.history

end Sys2Proof.Machine
end

