-- ==== Sys2Proof/Certificates/Slice0/Obligations.lean ====
section
/-! DEFINITION. The statements. The definitions before them say, apart from the machine's own functions, what the rules say of
an operation's effect. -/

namespace Sys2Proof.Claims

open Sys2Proof.Machine

/-! ### The states and the effects that the statements name -/

/-- Ready and Idle: the preconditions of every command and session operation (R109, R144). -/
abbrev ReadyIdle (s : State) : Prop := s.life = .ready ∧ phase s = .idle

/-- The device acknowledges its next `n` samples. -/
abbrev AcksFirst (s : State) (n : Nat) : Prop := ∀ j < n, drawAt s j = s.cfg.ackLevel

/-- The first sample that the device does not acknowledge is the one `k` samples from now. -/
abbrev FirstNack (s : State) (k : Nat) : Prop := AcksFirst s k ∧ drawAt s k ≠ s.cfg.ackLevel

/-- `s` after operation `i` appended the groups `gs`, took `n` samples and ended with outcome `o`; nothing else changes. The
record of outcomes and the device's answers are the model's own fields (log entries 8 and 10). -/
def after (s : State) (i : Instr) (gs : List Group) (n : Nat) (o : OpOutcome) : State :=
  { s with
    trace := s.trace ++ groupEvents s.cfg.dioRestore gs, draws := s.draws.drop n, drawn := s.drawn + n,
    history := s.history ++ [(.op i, o)] }

/-- `s` after a refusal: no event, no result, no change but the mark (R173). That it is a next state is log entry 2. -/
def refusedBy (i : Issued) (r : RefuseReason) (s : State) : State :=
  { s with refused := true, history := s.history ++ [(i, .refusal r)] }

/-- The groups of acknowledged bytes. -/
def ackedBytes (c : Config) (bytes : List Byte) : List Group := bytes.map fun b => .byte b c.ackLevel

/-- The groups of a transaction whose every byte is acknowledged. -/
def ackedTxn (c : Config) (bytes : List Byte) : List Group := .start :: ackedBytes c bytes ++ [.stop]

/-- The groups of a transaction that ends at its byte `k`, the first that is not acknowledged (R102). -/
def nackedTxn (c : Config) (bytes : List Byte) (k : Nat) : List Group :=
  .start :: ackedBytes c (bytes.take k) ++ [.byte (bytes.getD k 0) (!c.ackLevel), .stop]

/-- The byte `0x80 | (on << 3) | level` of R103 and R157. -/
def displayControl (on : Bool) (level : Int) : Byte := 0x80 ||| (if on then 0x08 else 0x00) ||| BitVec.ofInt 8 level

/-- The 16-bit two's complement of an operand at the place of `V`, bits [31:16] of a host word (R61, R64). -/
def valueField (v : Int) : Nat := (v % 0x10000).toNat * 0x10000

/-- The operand fits `V` (R64). -/
abbrev FitsField (v : Int) : Prop := -32768 ≤ v ∧ v ≤ 32767

/-- `b` holds the number `v` (R124): at index `j`, Blank if zeros are suppressed, `j` is not the ones place, and no digit down
to it is significant, else the pattern of decimal digit `3 − j`. -/
def IsNumberBuffer (c : Config) (v : Nat) (suppress : Bool) (b : Buffer) : Prop :=
  ∀ j : Fin 4, bufferByte b j =
    if suppress = true ∧ j.val ≤ 2 ∧ v / 10 ^ (3 - j.val) = 0 then c.blankPattern
    else c.segTable.get (Fin.ofNat 10 (v / 10 ^ (3 - j.val) % 10))

/-- What operation `i` does from `s` if it writes the buffer `b` to the display (R145): the three ends it can have. -/
def WritesDisplay (i : Instr) (b : Buffer) (s : State) : Prop :=
  (AcksFirst s 6 →
    exec i s = .next { after s i
      (ackedTxn s.cfg [s.cfg.dataCmdAuto] ++ ackedTxn s.cfg [s.cfg.baseAddr, b.s0, b.s1, b.s2, b.s3]) 6 (.ok .unit) with
      buf := .val b }) ∧
  (FirstNack s 0 →
    exec i s = .next (after s i (nackedTxn s.cfg [s.cfg.dataCmdAuto] 0) 1 (.error (.busError 0 0)))) ∧
  (∀ k ≤ 4, FirstNack s (k + 1) →
    exec i s = .next (after s i
      (ackedTxn s.cfg [s.cfg.dataCmdAuto] ++ nackedTxn s.cfg [s.cfg.baseAddr, b.s0, b.s1, b.s2, b.s3] k) (k + 2)
      (.error (.busError 1 k))))

/-- What the checks common to command and session operations do (R109, R141, R144). -/
def Gated (i : Instr) : Prop :=
  ∀ s : State,
    (s.life = .uninitialized → exec i s = .next (refusedBy (.op i) .notInitialized s)) ∧
    (s.life = .ready → phase s ≠ .idle → exec i s = .next (refusedBy (.op i) .commandInOpenTransaction s))

/-! ### The families -/

/-- The operations of spec/42_segment_encoder.md. -/
def isEncoder : Instr → Bool
  | .encDigit _ _ | .encNumber _ _ | .encApplyIndicator _ _ _ _ => true
  | _ => false

/-- The instructions that write one byte in an open transaction: BUS_WRITE_BYTE and the wire commands. -/
def isByteWrite : Instr → Bool
  | .busWriteByte _ | .dataCmdAuto | .dataCmdFixed | .displayCtrl _ _ | .addrCmd _ => true
  | _ => false

/-- The operations of spec/41_command_protocol.md and those of spec/43_display_session.md but SES_INIT. -/
def isCommandOrSession : Instr → Bool
  | .cmdSetDataMode _ | .cmdSetBrightness _ _ | .cmdWriteDigits _ _ | .sesSetNumber _ _ | .sesSetNumberInd _ _ _
  | .sesSetRawSegment _ _ | .sesSetBrightness _ => true
  | _ => false

/-- The reason for which the spec refuses an operation in a state, if it refuses it: R173's conditions in R174's order. -/
def refusalReason (i : Instr) (s : State) : Option RefuseReason :=
  if isEncoder i then none
  else if i = .sesInit then (if s.life = .ready then some .alreadyInitialized else none)
  else if s.life = .uninitialized then some .notInitialized
  else if i = .busStart ∧ phase s ≠ .idle then some .startInOpenTransaction
  else if isByteWrite i = true ∧ phase s ≠ .opened then some .byteOutsideTransaction
  else if isCommandOrSession i = true ∧ phase s ≠ .idle then some .commandInOpenTransaction
  else none

/-- The "raised by" column of R170. -/
def mayRaise : Instr → OpError → Bool
  | .cmdSetDataMode _, .busError _ _ => true
  | .cmdSetBrightness _ _, .busError _ _ => true
  | .cmdSetBrightness _ _, .invalidArgument => true
  | .cmdWriteDigits _ _, .busError _ _ => true
  | .encDigit _ _, .invalidArgument => true
  | .encNumber _ _, .outOfRange => true
  | .encApplyIndicator _ _ _ _, .invalidArgument => true
  | .sesSetNumber _ _, .busError _ _ => true
  | .sesSetNumber _ _, .outOfRange => true
  | .sesSetNumberInd _ _ _, .busError _ _ => true
  | .sesSetNumberInd _ _ _, .outOfRange => true
  | .sesSetRawSegment _ _, .busError _ _ => true
  | .sesSetRawSegment _ _, .invalidArgument => true
  | .sesSetBrightness _, .busError _ _ => true
  | .sesSetBrightness _, .invalidArgument => true
  | _, _ => false

/-! ### The opcode table -/

/-- A row of spec/opcode_table.json of format HOST64: the opcode, `match` and `mask`. -/
structure HostRow where
  opcode : BitVec 4
  bits : Word
  mask : Word

/-- The HOST64 rows of spec/opcode_table.json, letter for letter. -/
def hostRows : List HostRow := [
  ⟨0x1, 0x0000000000000001, 0xFFFFFFFFFFFFFFFF⟩,
  ⟨0x2, 0x0000000000000002, 0xFFFFFFFFFFFFFFFF⟩,
  ⟨0x3, 0x0000000000000003, 0xFFFFFFFFFFFF00FF⟩,
  ⟨0x4, 0x0000000000000004, 0xFFFFFFFFFFFFFFEF⟩,
  ⟨0x5, 0x0000000000000005, 0xFFFFFFFF0000FFEF⟩,
  ⟨0x6, 0x0000000000000006, 0x00000000FFFF00FF⟩,
  ⟨0x7, 0x0000000000000007, 0xFFFFFFFF0000FFDF⟩,
  ⟨0x8, 0x0000000000000008, 0xFFFFFFFF0000FFEF⟩,
  ⟨0x9, 0x0000000000000009, 0x00000000FFFFC8EF⟩,
  ⟨0xA, 0x000000000000000A, 0xFFFFFFFFFFFFFFFF⟩,
  ⟨0xB, 0x000000000000000B, 0xFFFFFFFF0000FFEF⟩,
  ⟨0xC, 0x000000000000000C, 0xFFFFFFFF000000EF⟩,
  ⟨0xD, 0x000000000000000D, 0xFFFFFFFF000000FF⟩,
  ⟨0xE, 0x000000000000000E, 0xFFFFFFFF0000FFFF⟩]

/-- The table's own note on ENC_DIGIT: a word with `F1 = 1` and `V ≠ 0` is refused besides. -/
def blankWithValue (w : Word) : Prop := w.getLsbD 5 = true ∧ w.extractLsb' 16 16 ≠ 0

/-- The opcode of an instruction (R62); none for a wire command. -/
def opcodeOf : Instr → Option (BitVec 4)
  | .busStart => some 0x1
  | .busStop => some 0x2
  | .busWriteByte _ => some 0x3
  | .cmdSetDataMode _ => some 0x4
  | .cmdSetBrightness _ _ => some 0x5
  | .cmdWriteDigits _ _ => some 0x6
  | .encDigit _ _ => some 0x7
  | .encNumber _ _ => some 0x8
  | .encApplyIndicator _ _ _ _ => some 0x9
  | .sesInit => some 0xA
  | .sesSetNumber _ _ => some 0xB
  | .sesSetNumberInd _ _ _ => some 0xC
  | .sesSetRawSegment _ _ => some 0xD
  | .sesSetBrightness _ => some 0xE
  | .dataCmdAuto => none
  | .dataCmdFixed => none
  | .displayCtrl _ _ => none
  | .addrCmd _ => none

/-! ### Invariants -/

/-- The configuration is within what the spec states, and between operations every register is set or none is (R24, R33). -/
def RegisterInvariant (s : State) : Prop := configOk s.cfg = true ∧ RegistersSet s

/-- With it, the trace is made of event groups, the phase agrees with the transaction log (R25, R47), and the mark is set exactly
if a refusal is on record (R15, R173). -/
def LogInvariant (s : State) : Prop := RegisterInvariant s ∧ TraceLogged s ∧ RefusalsRecorded s

end Sys2Proof.Claims

section

open Sys2Proof Sys2Proof.Machine Sys2Proof.Claims

/-! ### Reset, pins and phase -/

/-- The power-on column of R30's table, with the parameters' defaults (R9). The host's and the device's side of the state
(no request, no answer listed) and the refusal mark come with it. -/
def Obligations.ResetIsPowerOn : Prop :=
  State.reset.life = .uninitialized ∧ State.reset.clkOut = .unset ∧ State.reset.dioOe = .unset ∧
  State.reset.dioOut = .unset ∧ State.reset.bright = .unset ∧ State.reset.buf = .unset ∧ State.reset.trace = [] ∧
  State.reset.refused = false ∧ State.reset.inbox = [] ∧ State.reset.history = [] ∧
  State.reset.cfg.brightMin = 0 ∧ State.reset.cfg.brightMax = 7 ∧ State.reset.cfg.defaultBrightness = 3 ∧
  State.reset.cfg.baseAddr = 0xC0 ∧ State.reset.cfg.dataCmdAuto = 0x40 ∧
  State.reset.cfg.dataCmdFixed = 0x44 ∧ State.reset.cfg.blankPattern = 0 ∧ State.reset.cfg.indDigit = 1 ∧
  State.reset.cfg.suppressInd = true ∧ State.reset.cfg.ackLevel = false ∧ State.reset.cfg.dioRestore = false ∧
  phase State.reset = .none

/-- R25: the phase is a function of the pin registers. -/
def Obligations.PhaseDerivedFromPins : Prop :=
  ∀ s : State,
    (s.clkOut = .unset ∨ s.dioOe = .unset ∨ s.dioOut = .unset → phase s = .none) ∧
    (phase s = .idle ↔ s.clkOut = .val true ∧ s.dioOe = .val true ∧ s.dioOut = .val true) ∧
    (s.life = .ready → s.clkOut ≠ .unset → s.dioOe ≠ .unset → s.dioOut ≠ .unset → phase s ≠ .idle → phase s = .opened)

/-- R22: what decides the line levels. -/
def Obligations.PinRegistersDecideLines : Prop :=
  ∀ s : State, clkLine s = s.clkOut ∧ (s.dioOe = .val true → dioLine s = s.dioOut) ∧
    (s.dioOe = .val false → dioLine s = .unset)

/-! ### The Bus Driver -/

/-- R83, whole: encoding, refusals, effect, result, end phase. -/
def Obligations.BusStartMeaning : Prop :=
  (∀ c : Config, encode c .busStart = .host 0x1) ∧
  ∀ s : State,
    (s.life = .uninitialized → exec .busStart s = .next (refusedBy (.op .busStart) .notInitialized s)) ∧
    (s.life = .ready → phase s ≠ .idle →
      exec .busStart s = .next (refusedBy (.op .busStart) .startInOpenTransaction s)) ∧
    (ReadyIdle s → ∃ t : State,
      exec .busStart s = .next t ∧
      t = { s with
        clkOut := .val true, dioOe := .val true, dioOut := .val false,
        trace := s.trace ++ [.dio true, .clk true, .dio false],
        history := s.history ++ [(.op .busStart, .ok .unit)] } ∧
      phase t = .opened ∧ lastResult t = some 0)

/-- R84, whole: encoding, refusals, effect, result, end phase, number of entries. -/
def Obligations.BusWriteByteMeaning : Prop :=
  ∀ b : Byte,
    (∀ c : Config, encode c (.busWriteByte b) = .host (BitVec.ofNat 64 (b.toNat * 0x100 + 0x3))) ∧
    ∀ s : State,
      (s.life = .uninitialized →
        exec (.busWriteByte b) s = .next (refusedBy (.op (.busWriteByte b)) .notInitialized s)) ∧
      (s.life = .ready → phase s ≠ .opened →
        exec (.busWriteByte b) s = .next (refusedBy (.op (.busWriteByte b)) .byteOutsideTransaction s)) ∧
      (s.life = .ready → phase s = .opened → ∃ (t : State) (es : List Event),
        exec (.busWriteByte b) s = .next t ∧
        t = { s with
          clkOut := .val false, dioOe := .val true, dioOut := .val s.cfg.dioRestore,
          trace := s.trace ++ es, draws := s.draws.drop 1, drawn := s.drawn + 1,
          history := s.history ++ [(.op (.busWriteByte b), .ok (.ack (drawAt s 0 == s.cfg.ackLevel)))] } ∧
        es = [.clk false, .dio (b.getLsbD 0), .clk true, .clk false, .dio (b.getLsbD 1), .clk true,
          .clk false, .dio (b.getLsbD 2), .clk true, .clk false, .dio (b.getLsbD 3), .clk true,
          .clk false, .dio (b.getLsbD 4), .clk true, .clk false, .dio (b.getLsbD 5), .clk true,
          .clk false, .dio (b.getLsbD 6), .clk true, .clk false, .dio (b.getLsbD 7), .clk true,
          .clk false, .release, .clk true, .sample (drawAt s 0), .clk false, .dio s.cfg.dioRestore] ∧
        es.length = 30 ∧ transitions es = 29 ∧ phase t = .opened ∧
        lastResult t = some (if drawAt s 0 = s.cfg.ackLevel then 0x10 else 0))

/-- R88, whole: encoding, refusal, effect in both phases, result, end phase, idempotence in phase Idle. -/
def Obligations.BusStopMeaning : Prop :=
  (∀ c : Config, encode c .busStop = .host 0x2) ∧
  ∀ s : State,
    (s.life = .uninitialized → exec .busStop s = .next (refusedBy (.op .busStop) .notInitialized s)) ∧
    (s.life = .ready → ∃ t : State,
      exec .busStop s = .next t ∧
      t = { s with
        clkOut := .val true, dioOe := .val true, dioOut := .val true,
        trace := s.trace ++ [.clk false, .dio false, .clk true, .dio true],
        history := s.history ++ [(.op .busStop, .ok .unit)] } ∧
      phase t = .idle ∧ lastResult t = some 0 ∧ (phase s = .idle → blockState t = blockState s))

/-- The wire commands as instructions: the model's choice, log entry 3. In an open transaction each is one byte write of its
command byte (R71, R72, R73), with BUS_WRITE_BYTE's refusals and result. -/
def Obligations.WireCommandsWriteTheirByte : Prop :=
  ∀ (s : State) (i : Instr) (b : Byte),
    (i = .dataCmdAuto ∧ b = s.cfg.dataCmdAuto) ∨ (i = .dataCmdFixed ∧ b = s.cfg.dataCmdFixed) ∨
      (∃ (on : Bool) (level : BitVec 3), i = .displayCtrl on level ∧ b = displayControl on level.toNat ∧
        b = BitVec.ofNat 8 (0x80 + 8 * on.toNat + level.toNat)) ∨
      (∃ a : BitVec 4, i = .addrCmd a ∧ b = BitVec.ofNat 8 (0xC0 + a.toNat)) →
    encode s.cfg i = .wire b ∧
    (s.life = .uninitialized → exec i s = .next (refusedBy (.op i) .notInitialized s)) ∧
    (s.life = .ready → phase s ≠ .opened → exec i s = .next (refusedBy (.op i) .byteOutsideTransaction s)) ∧
    (s.life = .ready → phase s = .opened →
      exec i s = .next { after s i [.byte b (drawAt s 0)] 1 (.ok (.ack (drawAt s 0 == s.cfg.ackLevel))) with
        clkOut := .val false, dioOe := .val true, dioOut := .val s.cfg.dioRestore })

/-- R85: the block's state after a byte write does not depend on the device's answers, nor do the transitions it makes. -/
def Obligations.ByteWriteIgnoresTheDraw : Prop :=
  ∀ (i : Instr) (s t u : State) (draws : List Level) (drawn : Nat), isByteWrite i = true →
    exec i s = .next t → exec i { s with draws := draws, drawn := drawn } = .next u →
    blockState u = blockState t ∧ u.refused = t.refused ∧
      u.trace.filter isTransition = t.trace.filter isTransition

/-- R89: one start condition for each BUS_START, one stop condition for each BUS_STOP, none inside a byte; the conditions are
read off the driven levels, from the levels that the pin registers hold before. -/
def Obligations.NoSpuriousConditions : Prop :=
  ∀ (s t : State) (clk dio : Level) (es : List Event),
    s.life = .ready → s.clkOut = .val clk → s.dioOe = .val true → s.dioOut = .val dio →
    (phase s = .idle → exec .busStart s = .next t → t.trace = s.trace ++ es →
      conditions clk (some dio) es = [.start]) ∧
    (∀ b : Byte, exec (.busWriteByte b) s = .next t → t.trace = s.trace ++ es → conditions clk (some dio) es = []) ∧
    (exec .busStop s = .next t → t.trace = s.trace ++ es → conditions clk (some dio) es = [.stop])

/-! ### The Command Protocol -/

/-- R100, whole. -/
def Obligations.CmdSetDataModeMeaning : Prop :=
  ∀ auto : Bool,
    (∀ c : Config, encode c (.cmdSetDataMode auto) = .host (if auto then 0x14 else 0x4)) ∧
    Gated (.cmdSetDataMode auto) ∧
    ∀ (s : State) (cmd : Byte), ReadyIdle s → cmd = (if auto then s.cfg.dataCmdAuto else s.cfg.dataCmdFixed) →
      (AcksFirst s 1 → exec (.cmdSetDataMode auto) s =
        .next (after s (.cmdSetDataMode auto) (ackedTxn s.cfg [cmd]) 1 (.ok .unit))) ∧
      (FirstNack s 0 → exec (.cmdSetDataMode auto) s =
        .next (after s (.cmdSetDataMode auto) (nackedTxn s.cfg [cmd] 0) 1 (.error (.busError 0 0))))

/-- R103, whole: every level is either in range and sent, or rejected with no line event. The range is the instance's
`BRIGHT_MIN` to `BRIGHT_MAX` (R9), which is R103's 0..7 in every configuration within the spec's bounds. -/
def Obligations.CmdSetBrightnessMeaning : Prop :=
  ∀ (level : Int) (on : Bool),
    (∀ c : Config, FitsField level → encode c (.cmdSetBrightness level on) =
      .host (BitVec.ofNat 64 (valueField level + 0x10 * on.toNat + 0x5))) ∧
    (∀ c : Config, configOk c = true → c.brightMin = 0 ∧ c.brightMax = 7) ∧
    Gated (.cmdSetBrightness level on) ∧
    ∀ s : State, ReadyIdle s →
      (level < s.cfg.brightMin ∨ s.cfg.brightMax < level → exec (.cmdSetBrightness level on) s =
        .next (after s (.cmdSetBrightness level on) [] 0 (.error .invalidArgument))) ∧
      (s.cfg.brightMin ≤ level → level ≤ s.cfg.brightMax → AcksFirst s 1 → exec (.cmdSetBrightness level on) s =
        .next (after s (.cmdSetBrightness level on) (ackedTxn s.cfg [displayControl on level]) 1 (.ok .unit))) ∧
      (s.cfg.brightMin ≤ level → level ≤ s.cfg.brightMax → FirstNack s 0 → exec (.cmdSetBrightness level on) s =
        .next (after s (.cmdSetBrightness level on) (nackedTxn s.cfg [displayControl on level] 0) 1
          (.error (.busError 0 0))))

/-- R106, whole: the base is sent verbatim, the abort is at the first unacknowledged byte, and `BUF` is not written. -/
def Obligations.CmdWriteDigitsMeaning : Prop :=
  ∀ (base : Byte) (b : Buffer),
    (∀ c : Config, encode c (.cmdWriteDigits base b) = .host (BitVec.ofNat 64
      (b.s3.toNat * 2 ^ 56 + b.s2.toNat * 2 ^ 48 + b.s1.toNat * 2 ^ 40 + b.s0.toNat * 2 ^ 32 + base.toNat * 0x100 + 0x6))) ∧
    Gated (.cmdWriteDigits base b) ∧
    ∀ s : State, ReadyIdle s →
      (AcksFirst s 5 → exec (.cmdWriteDigits base b) s =
        .next (after s (.cmdWriteDigits base b) (ackedTxn s.cfg [base, b.s0, b.s1, b.s2, b.s3]) 5 (.ok .unit))) ∧
      (∀ k ≤ 4, FirstNack s k → exec (.cmdWriteDigits base b) s =
        .next (after s (.cmdWriteDigits base b) (nackedTxn s.cfg [base, b.s0, b.s1, b.s2, b.s3] k) (k + 1)
          (.error (.busError 0 k))))

/-- R181: under a device that denies its next answer, an operation that reaches the bus raises BusError(0, 0), sends one byte
and leaves phase Idle; one that does not reach it raised an argument error and moved no line. -/
def Obligations.DeniedFirstByteEndsTheOperation : Prop :=
  ∀ (i : Instr) (s : State), isCommandOrSession i = true → ReadyIdle s → FirstNack s 0 →
    (∃ b : Byte, exec i s =
      .next (after s i [.start, .byte b (!s.cfg.ackLevel), .stop] 1 (.error (.busError 0 0))) ∧
      phase (after s i [.start, .byte b (!s.cfg.ackLevel), .stop] 1 (.error (.busError 0 0))) = .idle) ∨
    exec i s = .next (after s i [] 0 (.error .invalidArgument)) ∨
    exec i s = .next (after s i [] 0 (.error .outOfRange))

/-! ### The Segment Encoder -/

/-- R121, whole: Blank, the ten digits, and InvalidArgument for every other value, in every state. -/
def Obligations.EncDigitMeaning : Prop :=
  (∀ c : Config, encode c (.encDigit 0 true) = .host 0x27) ∧
  (∀ (c : Config) (value : Int), FitsField value →
    encode c (.encDigit value false) = .host (BitVec.ofNat 64 (valueField value + 0x7))) ∧
  ∀ (s : State) (value : Int),
    exec (.encDigit value true) s = .next (after s (.encDigit value true) [] 0 (.ok (.byte s.cfg.blankPattern))) ∧
    (∀ d : Fin 10, value = d.val → exec (.encDigit value false) s =
      .next (after s (.encDigit value false) [] 0 (.ok (.byte (s.cfg.segTable.get d))))) ∧
    (value < 0 ∨ 9 < value → exec (.encDigit value false) s =
      .next (after s (.encDigit value false) [] 0 (.error .invalidArgument)))

/-- R124, whole: the digits and the blanks of every number in 0..9999, and OutOfRange outside, in every state. -/
def Obligations.EncNumberMeaning : Prop :=
  ∀ (s : State) (value : Int) (suppress : Bool),
    (∀ c : Config, FitsField value → encode c (.encNumber value suppress) =
      .host (BitVec.ofNat 64 (valueField value + 0x10 * suppress.toNat + 0x8))) ∧
    (0 ≤ value → value ≤ 9999 → ∃ b : Buffer, IsNumberBuffer s.cfg value.toNat suppress b ∧
      exec (.encNumber value suppress) s = .next (after s (.encNumber value suppress) [] 0 (.ok (.buffer b)))) ∧
    (value < 0 ∨ 9999 < value → exec (.encNumber value suppress) s =
      .next (after s (.encNumber value suppress) [] 0 (.error .outOfRange)))

/-- R128, whole: exactly bit `p` of byte `d` takes the value of `enabled`, in every state. -/
def Obligations.EncApplyIndicatorMeaning : Prop :=
  ∀ (s : State) (b : Buffer) (d p : Int) (enabled : Bool),
    (∀ c : Config, 0 ≤ d → d ≤ 3 → 0 ≤ p → p ≤ 7 → encode c (.encApplyIndicator b d p enabled) = .host (BitVec.ofNat 64
      (b.s3.toNat * 2 ^ 56 + b.s2.toNat * 2 ^ 48 + b.s1.toNat * 2 ^ 40 + b.s0.toNat * 2 ^ 32 + d.toNat * 0x1000
        + p.toNat * 0x100 + 0x10 * enabled.toNat + 0x9))) ∧
    (0 ≤ d → d ≤ 3 → 0 ≤ p → p ≤ 7 → ∃ out : Buffer,
      exec (.encApplyIndicator b d p enabled) s =
        .next (after s (.encApplyIndicator b d p enabled) [] 0 (.ok (.buffer out))) ∧
      ∀ (j : Fin 4) (k : Nat), k < 8 →
        (bufferByte out j).getLsbD k =
          if (j.val : Int) = d ∧ (k : Int) = p then enabled else (bufferByte b j).getLsbD k) ∧
    (d < 0 ∨ 3 < d ∨ p < 0 ∨ 7 < p → exec (.encApplyIndicator b d p enabled) s =
      .next (after s (.encApplyIndicator b d p enabled) [] 0 (.error .invalidArgument)))

/-- R123: the encoder operations change nothing but the record of outcomes, and their outcome depends on their operands and
the configuration alone. -/
def Obligations.EncoderIsPure : Prop :=
  ∀ (i : Instr) (s t : State), isEncoder i = true → t.cfg = s.cfg →
    ∃ o : OpOutcome, (∀ r : RefuseReason, o ≠ .refusal r) ∧
      exec i s = .next { s with history := s.history ++ [(.op i, o)] } ∧
      exec i t = .next { t with history := t.history ++ [(.op i, o)] }

/-- R125: the four digits are the decimal form of the number. -/
def Obligations.DigitsAreTheDecimalForm : Prop :=
  ∀ n : Nat, n ≤ 9999 →
    n = 1000 * (digitOf n 0).val + 100 * (digitOf n 1).val + 10 * (digitOf n 2).val + (digitOf n 3).val

/-- R126, whole: which positions are leading zeros, and how many suppression blanks. -/
def Obligations.LeadingZeroCount : Prop :=
  ∀ n : Nat, n ≤ 9999 →
    (∀ i : Fin 4, isLeading n i = true ↔ i.val ≤ 2 ∧ ∀ j : Fin 4, j ≤ i → digitOf n j = 0) ∧
    (List.finRange 4).countP (isLeading n) = if n < 10 then 3 else if n < 100 then 2 else if n < 1000 then 1 else 0

/-- R127, for a configuration within the spec's bounds: ENC_DIGIT and ENC_NUMBER never set bit 7. -/
def Obligations.EncoderNeverSetsIndicator : Prop :=
  ∀ s : State, configOk s.cfg = true →
    (∀ (value : Int) (blank : Bool) (b : Byte) (t : State), exec (.encDigit value blank) s = .next t →
      lastOutcome t = some (.ok (.byte b)) → b.getLsbD 7 = false) ∧
    (∀ (value : Int) (suppress : Bool) (b : Buffer) (t : State), exec (.encNumber value suppress) s = .next t →
      lastOutcome t = some (.ok (.buffer b)) → ∀ j : Fin 4, (bufferByte b j).getLsbD 7 = false)

/-- R129: clearing after setting restores the buffer exactly when the bit was 0. -/
def Obligations.IndicatorRoundTrip : Prop :=
  ∀ (b : Buffer) (d : Fin 4) (p : Fin 8),
    ∃ on off : Buffer, applyIndicator b d.val p.val true = .ok on ∧ applyIndicator on d.val p.val false = .ok off ∧
      (off = b ↔ (bufferByte b d).getLsbD p.val = false)

/-- R120: the default table, which the spec takes from general knowledge (log entry 13), with its count of lit segments and a
clear bit 7 in every entry; the defaults are within the spec's bounds. -/
def Obligations.DefaultPatternsMeetTheBound : Prop :=
  configOk Config.standard = true ∧
  Config.standard.segTable.toList = [0x3F, 0x06, 0x5B, 0x4F, 0x66, 0x6D, 0x7D, 0x07, 0x7F, 0x6F] ∧
  Config.standard.segTable.toList.map popcount = [6, 2, 5, 5, 4, 5, 6, 3, 7, 6] ∧
  ∀ d : Fin 10, (Config.standard.segTable.get d).getLsbD 7 = false

/-! ### The Display Session -/

/-- R142, whole. -/
def Obligations.SesInitMeaning : Prop :=
  (∀ c : Config, encode c .sesInit = .host 0xA) ∧
  ∀ s : State,
    (s.life = .ready → exec .sesInit s = .next (refusedBy (.op .sesInit) .alreadyInitialized s)) ∧
    (s.life = .uninitialized → ∃ t : State,
      exec .sesInit s = .next t ∧
      t = { s with
        clkOut := .val true, dioOe := .val true, dioOut := .val true, life := .ready,
        bright := .val s.cfg.defaultBrightness, buf := .val ⟨0, 0, 0, 0⟩,
        trace := s.trace ++ [.clk true, .dio true],
        history := s.history ++ [(.op .sesInit, .ok .unit)] } ∧
      phase t = .idle ∧ lastResult t = some 0)

/-- R146 and R145, whole. -/
def Obligations.SesSetNumberMeaning : Prop :=
  ∀ (value : Int) (blank : Bool),
    (∀ c : Config, FitsField value → encode c (.sesSetNumber value blank) =
      .host (BitVec.ofNat 64 (valueField value + 0x10 * blank.toNat + 0xB))) ∧
    Gated (.sesSetNumber value blank) ∧
    ∀ s : State, ReadyIdle s →
      (value < 0 ∨ 9999 < value → exec (.sesSetNumber value blank) s =
        .next (after s (.sesSetNumber value blank) [] 0 (.error .outOfRange))) ∧
      (0 ≤ value → value ≤ 9999 → ∀ b : Buffer, IsNumberBuffer s.cfg value.toNat blank b →
        WritesDisplay (.sesSetNumber value blank) b s)

/-- R149 and R145, whole: the masked bits of the indicator digit are forced. -/
def Obligations.SesSetNumberIndMeaning : Prop :=
  ∀ (value : Int) (enabled : Bool) (mask : Byte),
    (∀ c : Config, FitsField value → encode c (.sesSetNumberInd value enabled mask) =
      .host (BitVec.ofNat 64 (valueField value + mask.toNat * 0x100 + 0x10 * enabled.toNat + 0xC))) ∧
    Gated (.sesSetNumberInd value enabled mask) ∧
    ∀ s : State, ReadyIdle s →
      (value < 0 ∨ 9999 < value → exec (.sesSetNumberInd value enabled mask) s =
        .next (after s (.sesSetNumberInd value enabled mask) [] 0 (.error .outOfRange))) ∧
      (0 ≤ value → value ≤ 9999 → ∀ b out : Buffer, IsNumberBuffer s.cfg value.toNat s.cfg.suppressInd b →
        (∀ j : Fin 4, bufferByte out j =
          if j = s.cfg.indDigit then (if enabled then bufferByte b j ||| mask else bufferByte b j &&& ~~~mask)
          else bufferByte b j) →
        WritesDisplay (.sesSetNumberInd value enabled mask) out s)

/-- R153 and R145, whole: the other three digits come from `BUF`, which every Ready state that a run reaches has set
(RegisterInvariantKept). -/
def Obligations.SesSetRawSegmentMeaning : Prop :=
  ∀ (index : Int) (raw : Byte),
    (∀ c : Config, FitsField index → encode c (.sesSetRawSegment index raw) =
      .host (BitVec.ofNat 64 (valueField index + raw.toNat * 0x100 + 0xD))) ∧
    Gated (.sesSetRawSegment index raw) ∧
    ∀ s : State, ReadyIdle s →
      (index < 0 ∨ 3 < index → exec (.sesSetRawSegment index raw) s =
        .next (after s (.sesSetRawSegment index raw) [] 0 (.error .invalidArgument))) ∧
      (0 ≤ index → index ≤ 3 → ∀ old out : Buffer, s.buf = .val old →
        (∀ j : Fin 4, bufferByte out j = if (j.val : Int) = index then raw else bufferByte old j) →
        WritesDisplay (.sesSetRawSegment index raw) out s)

/-- R157, whole; the range is `BRIGHT_MIN` to `BRIGHT_MAX` (R9), which is R157's 0..7 in every configuration within the spec's
bounds. -/
def Obligations.SesSetBrightnessMeaning : Prop :=
  ∀ level : Int,
    (∀ c : Config, FitsField level → encode c (.sesSetBrightness level) =
      .host (BitVec.ofNat 64 (valueField level + 0xE))) ∧
    (∀ c : Config, configOk c = true → c.brightMin = 0 ∧ c.brightMax = 7) ∧
    Gated (.sesSetBrightness level) ∧
    ∀ s : State, ReadyIdle s →
      (level < s.cfg.brightMin ∨ s.cfg.brightMax < level → exec (.sesSetBrightness level) s =
        .next (after s (.sesSetBrightness level) [] 0 (.error .invalidArgument))) ∧
      (s.cfg.brightMin ≤ level → level ≤ s.cfg.brightMax → AcksFirst s 1 → exec (.sesSetBrightness level) s =
        .next { after s (.sesSetBrightness level) (ackedTxn s.cfg [displayControl true level]) 1 (.ok .unit) with
          bright := .val level }) ∧
      (s.cfg.brightMin ≤ level → level ≤ s.cfg.brightMax → FirstNack s 0 → exec (.sesSetBrightness level) s =
        .next (after s (.sesSetBrightness level) (nackedTxn s.cfg [displayControl true level] 0) 1
          (.error (.busError 0 0))))

/-- R155 with the writers of R30: `BRIGHT` and `BUF` change only when an operation that writes them ends in Ok. -/
def Obligations.SessionStateChangesOnlyOnOk : Prop :=
  ∀ (i : Instr) (s t : State), exec i s = .next t →
    (t.bright ≠ s.bright → lastOutcome t = some (.ok .unit) ∧
      (i = .sesInit ∨ ∃ level : Int, i = .sesSetBrightness level ∧ s.cfg.brightMin ≤ level ∧ level ≤ s.cfg.brightMax ∧
        t.bright = .val level)) ∧
    (t.buf ≠ s.buf → lastOutcome t = some (.ok .unit) ∧
      (i = .sesInit ∨ (∃ v b, i = .sesSetNumber v b) ∨ (∃ v e m, i = .sesSetNumberInd v e m) ∨
        ∃ j r, i = .sesSetRawSegment j r))

/-! ### Outcomes -/

/-- R173 and R174, steps 2 and 3: an operation is refused exactly for the reasons of the table, in the order of the rule, and a
refusal sets the mark and changes nothing else of the block. What is not refused ends in Ok or in an error, the mark as it was.
That a refusal is a next state is log entry 2, and that the wire commands have BUS_WRITE_BYTE's refusals is log entry 3. -/
def Obligations.RefusedExactlyForTheReasons : Prop :=
  ∀ (i : Instr) (s : State),
    (∀ r : RefuseReason, refusalReason i s = some r → exec i s = .next (refusedBy (.op i) r s)) ∧
    (refusalReason i s = none → ∃ (t : State) (o : OpOutcome), exec i s = .next t ∧
      t.history = s.history ++ [(.op i, o)] ∧ t.refused = s.refused ∧ ∀ r : RefuseReason, o ≠ .refusal r)

/-- R170's "raised by" column: an operation raises only the errors that name it; BusError's transaction index is 0 or 1 and its
byte index at most 4. -/
def Obligations.ErrorsOnlyFromTheirOperations : Prop :=
  ∀ (i : Instr) (s t : State) (e : OpError), exec i s = .next t → lastOutcome t = some (.error e) →
    mayRaise i e = true ∧ ∀ n k : Nat, e = .busError n k → n ≤ 1 ∧ k ≤ 4

/-- R175: errors are precise. An argument error leaves the whole block and the trace; BusError leaves phase Idle and the
session's registers. -/
def Obligations.ErrorsArePrecise : Prop :=
  ∀ (i : Instr) (s t : State) (e : OpError), exec i s = .next t → lastOutcome t = some (.error e) →
    (e = .invalidArgument ∨ e = .outOfRange → t = { s with history := s.history ++ [(.op i, .error e)] }) ∧
    (∀ n k : Nat, e = .busError n k →
      phase t = .idle ∧ t.buf = s.buf ∧ t.bright = s.bright ∧ t.life = s.life ∧
        ∃ gs : List Group, t.trace = s.trace ++ groupEvents s.cfg.dioRestore (gs ++ [.stop]))

/-- R69: the fields of the result word of every outcome; a refused operation returns none. -/
def Obligations.ResultWordLayout : Prop :=
  (∀ r : RefuseReason, resultWord (.refusal r) = none) ∧
  resultWord (.ok .unit) = some 0 ∧
  (∀ a : Bool, resultWord (.ok (.ack a)) = some (BitVec.ofNat 64 (0x10 * a.toNat))) ∧
  (∀ b : Byte, resultWord (.ok (.byte b)) = some (BitVec.ofNat 64 (b.toNat * 2 ^ 16))) ∧
  (∀ b : Buffer, resultWord (.ok (.buffer b)) = some (BitVec.ofNat 64
    (b.s3.toNat * 2 ^ 56 + b.s2.toNat * 2 ^ 48 + b.s1.toNat * 2 ^ 40 + b.s0.toNat * 2 ^ 32))) ∧
  (∀ t k : Nat, t ≤ 1 → k ≤ 15 →
    resultWord (.error (.busError t k)) = some (BitVec.ofNat 64 (t * 2 ^ 12 + k * 2 ^ 8 + 1))) ∧
  resultWord (.error .invalidArgument) = some 2 ∧
  resultWord (.error .outOfRange) = some 3

/-! ### The whole machine -/

/-- R15: no later operation clears the mark. -/
def Obligations.RefusedIsSticky : Prop :=
  ∀ s t : State, StepsTo s t → s.refused = true → t.refused = true

/-- R10: no operation changes a parameter. -/
def Obligations.ConfigurationIsFixed : Prop :=
  ∀ s t : State, StepsTo s t → t.cfg = s.cfg

/-- R23: `LIFE` never goes back, and only SES_INIT moves it (R30). -/
def Obligations.LifeOnlyMovesToReady : Prop :=
  ∀ (i : Instr) (s t : State), exec i s = .next t →
    (s.life = .ready → t.life = .ready) ∧ (t.life ≠ s.life → i = .sesInit ∧ t.life = .ready)

/-- R31 with R47: the trace is append-only, and every step appends whole event groups. -/
def Obligations.StepsAppendEventGroups : Prop :=
  ∀ s t : State, StepsTo s t → ∃ gs : List Group, t.trace = s.trace ++ groupEvents s.cfg.dioRestore gs

/-- R50 with R19: issuing puts a request after those that wait and changes nothing else; a step takes the one that was issued
first, and records it with its outcome after those before. -/
def Obligations.RequestsTakenInOrder : Prop :=
  (∀ (r : Request) (s : State), issue r s = { s with inbox := s.inbox ++ [r] }) ∧
  ∀ (s t : State) (r : Request) (rest : List Request), s.inbox = r :: rest → StepsTo s t →
    t.inbox = rest ∧ ∃ o : OpOutcome,
      (∀ i : Instr, decode s.cfg r = some i → t.history = s.history ++ [(.op i, o)]) ∧
      (∀ w : Word, r = .host w → decode s.cfg r = none → t.history = s.history ++ [(.reserved w, o)])

/-- A step runs the decoded instruction (R7, R28): `step` is `exec` of it in the state with the request taken. -/
def Obligations.StepRunsTheDecodedInstruction : Prop :=
  ∀ (s : State) (r : Request) (rest : List Request) (i : Instr), s.inbox = r :: rest → decode s.cfg r = some i →
    step s = exec i { s with inbox := rest }

/-- A placed table word is what the next step runs, in the state it was placed in. -/
def Obligations.PlacedWordRunsNext : Prop :=
  ∀ (s : State) (i : Instr),
    (∀ w : Word, decodeHost w = .ok i → step (s.withFetchWord 64 w.toNat) = exec i s) ∧
    (∀ b : Byte, decodeWire s.cfg b = some i → step (s.withFetchWord 8 b.toNat) = exec i s)

/-- R201: with nothing issued the block waits. The step that changes nothing is the model's form of it, log entry 7. -/
def Obligations.WaitsForTheHost : Prop :=
  ∀ s : State, s.inbox = [] → step s = .next s

/-- R67: the reserved words, each refused at its step with its reason; every other word is an operation. -/
def Obligations.ReservedWordsRefused : Prop :=
  ∀ (s : State) (w : Word) (rest : List Request) (f : Fields), s.inbox = .host w :: rest → f = splitWord w →
    (f.op = 0x0 ∨ f.op = 0xF →
      step s = .next (refusedBy (.reserved w) .reservedOpcode { s with inbox := rest })) ∧
    (f.op ≠ 0x0 → f.op ≠ 0xF →
      (f.fr ≠ 0 ∨ ((usedFields f.op).f0 = false ∧ f.f0 = true) ∨ ((usedFields f.op).f1 = false ∧ f.f1 = true) ∨
        ((usedFields f.op).a = false ∧ f.a ≠ 0) ∨ ((usedFields f.op).v = false ∧ f.v ≠ 0) ∨
        ((usedFields f.op).s = false ∧ f.s ≠ ⟨0, 0, 0, 0⟩) ∨ (f.op = 0x7 ∧ f.f1 = true ∧ f.v ≠ 0) ∨
        (f.op = 0x9 ∧ (f.a.getLsbD 7 = true ∨ f.a.getLsbD 6 = true ∨ f.a.getLsbD 3 = true)) →
        step s = .next (refusedBy (.reserved w) .reservedField { s with inbox := rest })) ∧
      (f.fr = 0 → unusedSet f = false → ¬(f.op = 0x7 ∧ f.f1 = true ∧ f.v ≠ 0) →
        ¬(f.op = 0x9 ∧ positionReserved f.a = true) → ∃ i : Instr, decodeHost w = .ok i ∧ opcodeOf i = some f.op))

/-- R55, R182: a step of one instance leaves every other, and steps of two instances commute. -/
def Obligations.InstancesAreIndependent : Prop :=
  ∀ (n m : Nat) (blocks : List State), n ≠ m →
    (∀ after : List State, stepInstance n blocks = some after → after[m]? = blocks[m]?) ∧
    (stepInstance n blocks).bind (stepInstance m) = (stepInstance m blocks).bind (stepInstance n)

/-! ### Invariants -/

/-- The register invariant holds at reset. -/
def Obligations.RegisterInvariantAtReset : Prop := RegisterInvariant State.reset

/-- R33 and R24: every step keeps the register invariant. -/
def Obligations.RegisterInvariantKept : Prop :=
  ∀ s t : State, RegisterInvariant s → StepsTo s t → RegisterInvariant t

/-- The log invariant holds at reset. -/
def Obligations.LogInvariantAtReset : Prop := LogInvariant State.reset

/-- R25, R47, and R15 with R173: every step keeps the log invariant. -/
def Obligations.LogInvariantKept : Prop :=
  ∀ s t : State, LogInvariant s → StepsTo s t → LogInvariant t

/-- R15, R33 and R47: every state that a host's requests can reach from power-on, with any configuration within the
bounds and any answers of the device, meets the log invariant, and its mark is set exactly if a refusal is on record. The runs
are not only the clean ones: that the machine goes on after a refusal, and so every state past one, is the model's choice (log
entry 2), and R15 lets a claim about the hardware rest on this only with the mark clear in the last state. -/
def Obligations.ReachableStatesAreSound : Prop :=
  ∀ (c : Config) (answers : List Level) (t : State), configOk c = true →
    Reaches { State.powerOn c with draws := answers } t →
    LogInvariant t ∧ t.cfg = c ∧ (t.refused = true ↔ ∃ (i : Issued) (r : RefuseReason), (i, .refusal r) ∈ t.history)

/-- R15 with R205: in a clean run from power-on (no refusal) that is not in service, only encoder operations have been taken. -/
def Obligations.CleanRunsInitialiseFirst : Prop :=
  ∀ (c : Config) (answers : List Level) (t : State), CleanRun { State.powerOn c with draws := answers } t →
    t.life = .uninitialized → ∀ e ∈ t.history, ∃ i : Instr, e.1 = .op i ∧ isEncoder i = true

/-! ### The wire -/

/-- R47: a concatenation of event groups parses in exactly one way. -/
def Obligations.TraceParsesInOneWay : Prop :=
  ∀ (restore : Level) (gs : List Group), parseTrace restore (groupEvents restore gs) = some gs

/-- R213 with R84, R102, R106, R145: the transitions of the event groups and of the transactions that the operations send. -/
def Obligations.TransitionCounts : Prop :=
  ∀ (c : Config) (b : Byte) (s : Level) (bytes : List Byte) (k : Nat),
    transitions (Group.start.events c.dioRestore) = 3 ∧
    transitions ((Group.byte b s).events c.dioRestore) = 29 ∧
    transitions (Group.stop.events c.dioRestore) = 4 ∧
    transitions (Group.init.events c.dioRestore) = 2 ∧
    transitions (groupEvents c.dioRestore (ackedTxn c bytes)) = 7 + 29 * bytes.length ∧
    (groupEvents c.dioRestore (ackedTxn c bytes)).length = 7 + 30 * bytes.length ∧
    (k < bytes.length → (groupEvents c.dioRestore (nackedTxn c bytes k)).length = 3 + 30 * (k + 1) + 4)

/-- R101, R105 and R32, read off the transaction log (the model's reading, log entry 4): an acknowledged data command decides
the controller's mode, an acknowledged display-control command its display, each leaving the other; a digit write
acknowledged in full leaves both if it begins at `BASE_ADDR` with the mode known to be auto-increment (R41), and leaves nothing
known at any other base or in any other mode. -/
def Obligations.AcknowledgedCommandsDecideTheController : Prop :=
  ∀ (s t : State) (l : TxLog), configOk s.cfg = true → ReadyIdle s → AcksFirst s 5 → TraceLogged s → txlog s = some l →
    (∀ auto : Bool, exec (.cmdSetDataMode auto) s = .next t → ∃ l2 : TxLog, txlog t = some l2 ∧
      controllerView s.cfg l2 = { controllerView s.cfg l with mode := some (if auto then .autoIncrement else .fixed) }) ∧
    (∀ (level : Int) (on : Bool), 0 ≤ level → level ≤ 7 → exec (.cmdSetBrightness level on) s = .next t →
      ∃ l2 : TxLog, txlog t = some l2 ∧
        controllerView s.cfg l2 = { controllerView s.cfg l with display := some (on, BitVec.ofInt 3 level) }) ∧
    (∀ b : Buffer, (controllerView s.cfg l).mode = some .autoIncrement →
      exec (.cmdWriteDigits s.cfg.baseAddr b) s = .next t →
      ∃ l2 : TxLog, txlog t = some l2 ∧ controllerView s.cfg l2 = controllerView s.cfg l) ∧
    (∀ (base : Byte) (b : Buffer), base ≠ s.cfg.baseAddr ∨ (controllerView s.cfg l).mode ≠ some .autoIncrement →
      exec (.cmdWriteDigits base b) s = .next t →
      ∃ l2 : TxLog, txlog t = some l2 ∧ controllerView s.cfg l2 = ⟨none, none⟩)

/-! ### Encoding -/

/-- Decoding what the encoder gives for a well-formed instruction gives it back, every operand at every value (R61 to R73). -/
def Obligations.DecodeOfEncode : Prop :=
  ∀ (c : Config) (i : Instr), configOk c = true → i.wf = true → decode c (encode c i) = some i

/-- What decodes is well formed and is what the encoder gives: no two requests carry one instruction. -/
def Obligations.EncodeOfDecode : Prop :=
  ∀ (c : Config) (r : Request) (i : Instr), decode c r = some i → i.wf = true ∧ encode c i = r

/-- The HOST64 rows of the opcode table: a word is an operation exactly when it matches a row (and, for ENC_DIGIT, is not
Blank with a value), and then it is that row's operation. -/
def Obligations.OpcodeTableMatches : Prop :=
  ∀ w : Word,
    (∀ row ∈ hostRows, w &&& row.mask = row.bits → ¬(row.opcode = 0x7 ∧ blankWithValue w) →
      ∃ i : Instr, decodeHost w = .ok i ∧ opcodeOf i = some row.opcode) ∧
    (∀ i : Instr, decodeHost w = .ok i → ∃ row ∈ hostRows, opcodeOf i = some row.opcode ∧ w &&& row.mask = row.bits)

/-- R70 to R73: the forms of the wire command bytes; the classes differ in bits [7:6]. -/
def Obligations.WireCommandForms : Prop :=
  ∀ c : Config, configOk c = true →
    encode c .dataCmdAuto = .wire c.dataCmdAuto ∧ encode c .dataCmdFixed = .wire c.dataCmdFixed ∧
    byteClass c.dataCmdAuto = 1 ∧ byteClass c.dataCmdFixed = 1 ∧
    (∀ (on : Bool) (level : BitVec 3), encode c (.displayCtrl on level) =
      .wire (BitVec.ofNat 8 (0x80 + 8 * on.toNat + level.toNat)) ∧
      byteClass (BitVec.ofNat 8 (0x80 + 8 * on.toNat + level.toNat)) = 2) ∧
    (∀ a : BitVec 4, encode c (.addrCmd a) = .wire (BitVec.ofNat 8 (0xC0 + a.toNat)) ∧
      byteClass (BitVec.ofNat 8 (0xC0 + a.toNat)) = 3)

/-- R76: each line of the table assembles to an operation whose host word is the table's, and the word decodes to it. -/
def Obligations.WorkedEncodings : Prop :=
  ∀ e ∈ ([
    ("SES_INIT", 0x000000000000000A),
    ("SES_SET_BRIGHTNESS 7", 0x000000000007000E),
    ("SES_SET_BRIGHTNESS -1", 0x00000000FFFF000E),
    ("SES_SET_NUMBER 905, blank", 0x000000000389001B),
    ("SES_SET_NUMBER_IND 905, on, 0x80", 0x000000000389801C),
    ("SES_SET_RAW_SEGMENT 2, 0x7F", 0x0000000000027F0D),
    ("BUS_WRITE_BYTE 0x40", 0x0000000000004003),
    ("CMD_SET_DATA_MODE auto", 0x0000000000000014),
    ("CMD_SET_BRIGHTNESS 7, on", 0x0000000000070015),
    ("CMD_WRITE_DIGITS 0xC0, 0x00, 0x6F, 0x3F, 0x6D", 0x6D3F6F000000C006),
    ("ENC_DIGIT blank", 0x0000000000000027),
    ("ENC_NUMBER 10000, suppress", 0x0000000027100018),
    ("ENC_APPLY_INDICATOR 0x00, 0x6F, 0x3F, 0x6D, 1, 7, on", 0x6D3F6F0000001719)] : List (String × Word)),
    ∃ i : Instr, assembleText e.1 = some i ∧ encode Config.standard i = .host e.2 ∧ decodeHost e.2 = .ok i

/-- R75: the line that a well-formed host operation is written as, as operands, assembles to it. -/
def Obligations.AssembleOfDisassemble : Prop :=
  ∀ (i : Instr) (l : AsmLine), i.wf = true → disassemble i = some l → assemble l = some i

end
end

