-- ==== Sys2Proof/Laws/Decode.lean ====
section
/-! SUPPORT. The fields of a host word and the word they make are two views of one thing, and each operand's field gives the
operand back. -/

namespace Sys2Proof

/-! ### Concatenations -/

theorem extract_high {m n : Nat} (x : BitVec m) (y : BitVec n) (k len : Nat) :
    (x ++ y).extractLsb' (n + k) len = x.extractLsb' k len := by
  rw [BitVec.extractLsb'_append_eq_of_le (by omega), Nat.add_sub_cancel_left]

theorem extract_low {m n : Nat} (x : BitVec m) (y : BitVec n) : (x ++ y).extractLsb' 0 n = y :=
  BitVec.extractLsb'_append_eq_right

theorem bit_high {m n : Nat} (x : BitVec m) (y : BitVec n) (k : Nat) :
    (x ++ y).getLsbD (n + k) = x.getLsbD k := by
  simp [BitVec.getLsbD_append]

theorem bit_low {m : Nat} (x : BitVec m) (b : Bool) : (x ++ BitVec.ofBool b).getLsbD 0 = b := by
  rw [BitVec.getLsbD_append, if_pos (by decide)]
  cases b <;> rfl

theorem extract_join {n : Nat} (w : BitVec n) (hi lo m len : Nat) (h : hi = lo + m) :
    w.extractLsb' hi len ++ w.extractLsb' lo m = w.extractLsb' lo (len + m) :=
  BitVec.extractLsb'_append_extractLsb'_eq_extractLsb' h

theorem ofBool_bit (w : Word) (i : Nat) : BitVec.ofBool (w.getLsbD i) = w.extractLsb' i 1 := by
  apply BitVec.eq_of_getLsbD_eq; intro j hj
  obtain rfl : j = 0 := by omega
  simp

/-! ### Words and fields -/

/-- The fields of the word made of some fields are those fields (R61). -/
theorem splitWord_packWord (f : Fields) : splitWord (packWord f) = f := by
  obtain ⟨op, f0, f1, fr, a, v, s0, s1, s2, s3⟩ := f
  have h0 : (packWord ⟨op, f0, f1, fr, a, v, s0, s1, s2, s3⟩).extractLsb' 0 4 = op := extract_low _ _
  have h1 : (packWord ⟨op, f0, f1, fr, a, v, s0, s1, s2, s3⟩).getLsbD 4 = f0 := (bit_high _ op 0).trans (bit_low _ _)
  have h2 : (packWord ⟨op, f0, f1, fr, a, v, s0, s1, s2, s3⟩).getLsbD 5 = f1 :=
    (bit_high _ op 1).trans ((bit_high _ (BitVec.ofBool f0) 0).trans (bit_low _ _))
  have h3 : ∀ k len, (packWord ⟨op, f0, f1, fr, a, v, s0, s1, s2, s3⟩).extractLsb' (4 + (1 + (1 + k))) len =
      (packBuffer ⟨s0, s1, s2, s3⟩ ++ v ++ a ++ fr).extractLsb' k len := fun k len =>
    (extract_high _ op _ len).trans ((extract_high _ (BitVec.ofBool f0) _ len).trans
      (extract_high _ (BitVec.ofBool f1) k len))
  have h4 : ∀ k len, (packBuffer ⟨s0, s1, s2, s3⟩ ++ v ++ a ++ fr).extractLsb' (2 + (8 + (16 + k))) len =
      (packBuffer ⟨s0, s1, s2, s3⟩).extractLsb' k len := fun k len =>
    (extract_high _ fr _ len).trans ((extract_high _ a _ len).trans (extract_high _ v k len))
  simp only [splitWord, Fields.mk.injEq, Buffer.mk.injEq]
  refine ⟨h0, h1, h2, ?_, ?_, ?_, ?_, ?_, ?_, ?_⟩
  · exact (h3 0 2).trans (extract_low _ _)
  · exact (h3 2 8).trans ((extract_high _ fr 0 8).trans (extract_low _ _))
  · exact (h3 10 16).trans ((extract_high _ fr 8 16).trans ((extract_high _ a 0 16).trans (extract_low _ _)))
  · exact (h3 26 8).trans ((h4 0 8).trans (extract_low _ _))
  · exact (h3 34 8).trans ((h4 8 8).trans ((extract_high _ s0 0 8).trans (extract_low _ _)))
  · exact (h3 42 8).trans ((h4 16 8).trans ((extract_high _ s0 8 8).trans
      ((extract_high _ s1 0 8).trans (extract_low _ _))))
  · exact (h3 50 8).trans ((h4 24 8).trans ((extract_high _ s0 16 8).trans ((extract_high _ s1 8 8).trans
      ((extract_high s3 s2 0 8).trans BitVec.extractLsb'_eq_self))))

/-- The word made of a word's fields is the word: the fields of R61 cover every bit. -/
theorem packWord_splitWord (w : Word) : packWord (splitWord w) = w := by
  simp only [splitWord, packWord, packBuffer, ofBool_bit]
  rw [extract_join w 56 48 8 8 rfl, extract_join w 48 40 8 _ rfl, extract_join w 40 32 8 _ rfl,
    extract_join w 32 16 16 _ rfl, extract_join w 16 8 8 _ rfl, extract_join w 8 6 2 _ rfl, extract_join w 6 5 1 _ rfl,
    extract_join w 5 4 1 _ rfl, extract_join w 4 0 4 _ rfl]
  exact BitVec.extractLsb'_eq_self

/-- A word is an operation by its fields. -/
theorem decodeHost_packWord (f : Fields) : decodeHost (packWord f) = decodeFields f := by
  rw [decodeHost, splitWord_packWord]

/-- The concatenation of two bit vectors as a number. -/
theorem toNat_append_eq {m n : Nat} (x : BitVec m) (y : BitVec n) : (x ++ y).toNat = x.toNat * 2 ^ n + y.toNat := by
  rw [BitVec.toNat_append, Nat.shiftLeft_eq, Nat.mul_comm, ← Nat.two_pow_add_eq_or_of_lt y.isLt, Nat.mul_comm]

/-- A packed buffer as a number (R44). -/
theorem packBuffer_toNat (b : Buffer) :
    (packBuffer b).toNat = b.s3.toNat * 2 ^ 24 + b.s2.toNat * 2 ^ 16 + b.s1.toNat * 2 ^ 8 + b.s0.toNat := by
  rw [packBuffer, toNat_append_eq, toNat_append_eq, toNat_append_eq]; omega

/-- A host word as a number (R61). -/
theorem packWord_toNat (f : Fields) :
    (packWord f).toNat = (packBuffer f.s).toNat * 2 ^ 32 + f.v.toNat * 2 ^ 16 + f.a.toNat * 2 ^ 8 + f.fr.toNat * 2 ^ 6
      + f.f1.toNat * 2 ^ 5 + f.f0.toNat * 2 ^ 4 + f.op.toNat := by
  rw [packWord, toNat_append_eq, toNat_append_eq, toNat_append_eq, toNat_append_eq, toNat_append_eq, toNat_append_eq,
    BitVec.toNat_ofBool, BitVec.toNat_ofBool]
  omega

/-! ### Operands and fields -/

/-- The value that `V` holds is the operand it carries (R64). -/
theorem fieldV_toInt {v : Int} (h : fitsV v = true) : (fieldV v).toInt = v := by
  have h' : -32768 ≤ v ∧ v ≤ 32767 := by simpa [fitsV] using h
  rw [fieldV, BitVec.toInt_ofInt]
  simp only [Int.bmod]
  split <;> omega

/-- `V` carries the value it holds (R64). -/
theorem fieldV_of_toInt (x : BitVec 16) : fieldV x.toInt = x := BitVec.ofInt_toInt

/-- `V` as a number is the operand modulo 2^16: two's complement (R64). -/
theorem fieldV_toNat (v : Int) : (fieldV v).toNat = (v % 0x10000).toNat := by
  rw [fieldV, BitVec.toNat_ofInt]
  rfl

/-- What `V` holds is in its span (R64). -/
theorem fitsV_toInt (x : BitVec 16) : fitsV x.toInt = true := by
  have h1 := x.toInt_lt; have h2 := x.le_toInt
  simp only [fitsV, decide_eq_true_eq]
  omega

/-- The digit and bit of a packed position (R65). -/
theorem positionDigit_packPosition {d p : Int} (h0 : 0 ≤ d) (h3 : d ≤ 3) (g0 : 0 ≤ p) (g7 : p ≤ 7) :
    positionDigit (packPosition d p) = d ∧ positionBit (packPosition d p) = p ∧
      positionReserved (packPosition d p) = false := by
  obtain ⟨d', rfl⟩ := Int.eq_ofNat_of_zero_le h0
  obtain ⟨p', rfl⟩ := Int.eq_ofNat_of_zero_le g0
  have hd : d' < 4 := by omega
  have hp : p' < 8 := by omega
  interval_cases d' <;> interval_cases p' <;> decide

end Sys2Proof
end

