-- ==== Sys2Proof/Laws/State.lean ====
section
/-! SUPPORT. What each elementary update of the state does to each field. -/

namespace Sys2Proof.Machine

/-! ### driveClk -/

@[simp] theorem driveClk_cfg (v : Level) (s : State) : (driveClk v s).cfg = s.cfg := rfl
@[simp] theorem driveClk_clkOut (v : Level) (s : State) : (driveClk v s).clkOut = .val v := rfl
@[simp] theorem driveClk_dioOe (v : Level) (s : State) : (driveClk v s).dioOe = s.dioOe := rfl
@[simp] theorem driveClk_dioOut (v : Level) (s : State) : (driveClk v s).dioOut = s.dioOut := rfl
@[simp] theorem driveClk_life (v : Level) (s : State) : (driveClk v s).life = s.life := rfl
@[simp] theorem driveClk_bright (v : Level) (s : State) : (driveClk v s).bright = s.bright := rfl
@[simp] theorem driveClk_buf (v : Level) (s : State) : (driveClk v s).buf = s.buf := rfl
@[simp] theorem driveClk_trace (v : Level) (s : State) : (driveClk v s).trace = s.trace ++ [.clk v] := rfl
@[simp] theorem driveClk_refused (v : Level) (s : State) : (driveClk v s).refused = s.refused := rfl
@[simp] theorem driveClk_inbox (v : Level) (s : State) : (driveClk v s).inbox = s.inbox := rfl
@[simp] theorem driveClk_history (v : Level) (s : State) : (driveClk v s).history = s.history := rfl
@[simp] theorem driveClk_draws (v : Level) (s : State) : (driveClk v s).draws = s.draws := rfl
@[simp] theorem driveClk_drawn (v : Level) (s : State) : (driveClk v s).drawn = s.drawn := rfl

/-! ### driveDio -/

@[simp] theorem driveDio_cfg (v : Level) (s : State) : (driveDio v s).cfg = s.cfg := rfl
@[simp] theorem driveDio_clkOut (v : Level) (s : State) : (driveDio v s).clkOut = s.clkOut := rfl
@[simp] theorem driveDio_dioOe (v : Level) (s : State) : (driveDio v s).dioOe = .val true := rfl
@[simp] theorem driveDio_dioOut (v : Level) (s : State) : (driveDio v s).dioOut = .val v := rfl
@[simp] theorem driveDio_life (v : Level) (s : State) : (driveDio v s).life = s.life := rfl
@[simp] theorem driveDio_bright (v : Level) (s : State) : (driveDio v s).bright = s.bright := rfl
@[simp] theorem driveDio_buf (v : Level) (s : State) : (driveDio v s).buf = s.buf := rfl
@[simp] theorem driveDio_trace (v : Level) (s : State) : (driveDio v s).trace = s.trace ++ [.dio v] := rfl
@[simp] theorem driveDio_refused (v : Level) (s : State) : (driveDio v s).refused = s.refused := rfl
@[simp] theorem driveDio_inbox (v : Level) (s : State) : (driveDio v s).inbox = s.inbox := rfl
@[simp] theorem driveDio_history (v : Level) (s : State) : (driveDio v s).history = s.history := rfl
@[simp] theorem driveDio_draws (v : Level) (s : State) : (driveDio v s).draws = s.draws := rfl
@[simp] theorem driveDio_drawn (v : Level) (s : State) : (driveDio v s).drawn = s.drawn := rfl

/-! ### releaseDio -/

@[simp] theorem releaseDio_cfg (s : State) : (releaseDio s).cfg = s.cfg := rfl
@[simp] theorem releaseDio_clkOut (s : State) : (releaseDio s).clkOut = s.clkOut := rfl
@[simp] theorem releaseDio_dioOe (s : State) : (releaseDio s).dioOe = .val false := rfl
@[simp] theorem releaseDio_dioOut (s : State) : (releaseDio s).dioOut = s.dioOut := rfl
@[simp] theorem releaseDio_life (s : State) : (releaseDio s).life = s.life := rfl
@[simp] theorem releaseDio_bright (s : State) : (releaseDio s).bright = s.bright := rfl
@[simp] theorem releaseDio_buf (s : State) : (releaseDio s).buf = s.buf := rfl
@[simp] theorem releaseDio_trace (s : State) : (releaseDio s).trace = s.trace ++ [.release] := rfl
@[simp] theorem releaseDio_refused (s : State) : (releaseDio s).refused = s.refused := rfl
@[simp] theorem releaseDio_inbox (s : State) : (releaseDio s).inbox = s.inbox := rfl
@[simp] theorem releaseDio_history (s : State) : (releaseDio s).history = s.history := rfl
@[simp] theorem releaseDio_draws (s : State) : (releaseDio s).draws = s.draws := rfl
@[simp] theorem releaseDio_drawn (s : State) : (releaseDio s).drawn = s.drawn := rfl

/-! ### sampleDio -/

@[simp] theorem sampleDio_cfg (s : State) : (sampleDio s).2.cfg = s.cfg := rfl
@[simp] theorem sampleDio_clkOut (s : State) : (sampleDio s).2.clkOut = s.clkOut := rfl
@[simp] theorem sampleDio_dioOe (s : State) : (sampleDio s).2.dioOe = s.dioOe := rfl
@[simp] theorem sampleDio_dioOut (s : State) : (sampleDio s).2.dioOut = s.dioOut := rfl
@[simp] theorem sampleDio_life (s : State) : (sampleDio s).2.life = s.life := rfl
@[simp] theorem sampleDio_bright (s : State) : (sampleDio s).2.bright = s.bright := rfl
@[simp] theorem sampleDio_buf (s : State) : (sampleDio s).2.buf = s.buf := rfl
@[simp] theorem sampleDio_trace (s : State) : (sampleDio s).2.trace = s.trace ++ [.sample (drawAt s 0)] := rfl
@[simp] theorem sampleDio_refused (s : State) : (sampleDio s).2.refused = s.refused := rfl
@[simp] theorem sampleDio_inbox (s : State) : (sampleDio s).2.inbox = s.inbox := rfl
@[simp] theorem sampleDio_history (s : State) : (sampleDio s).2.history = s.history := rfl
@[simp] theorem sampleDio_draws (s : State) : (sampleDio s).2.draws = s.draws.drop 1 := rfl
@[simp] theorem sampleDio_drawn (s : State) : (sampleDio s).2.drawn = s.drawn + 1 := rfl

/-! ### answer -/

@[simp] theorem answer_cfg (i : Issued) (o : OpOutcome) (s : State) : (answer i o s).cfg = s.cfg := rfl
@[simp] theorem answer_clkOut (i : Issued) (o : OpOutcome) (s : State) : (answer i o s).clkOut = s.clkOut := rfl
@[simp] theorem answer_dioOe (i : Issued) (o : OpOutcome) (s : State) : (answer i o s).dioOe = s.dioOe := rfl
@[simp] theorem answer_dioOut (i : Issued) (o : OpOutcome) (s : State) : (answer i o s).dioOut = s.dioOut := rfl
@[simp] theorem answer_life (i : Issued) (o : OpOutcome) (s : State) : (answer i o s).life = s.life := rfl
@[simp] theorem answer_bright (i : Issued) (o : OpOutcome) (s : State) : (answer i o s).bright = s.bright := rfl
@[simp] theorem answer_buf (i : Issued) (o : OpOutcome) (s : State) : (answer i o s).buf = s.buf := rfl
@[simp] theorem answer_trace (i : Issued) (o : OpOutcome) (s : State) : (answer i o s).trace = s.trace := rfl
@[simp] theorem answer_refused (i : Issued) (o : OpOutcome) (s : State) : (answer i o s).refused = s.refused := rfl
@[simp] theorem answer_inbox (i : Issued) (o : OpOutcome) (s : State) : (answer i o s).inbox = s.inbox := rfl
@[simp] theorem answer_history (i : Issued) (o : OpOutcome) (s : State) : (answer i o s).history = s.history ++ [(i, o)] := rfl
@[simp] theorem answer_draws (i : Issued) (o : OpOutcome) (s : State) : (answer i o s).draws = s.draws := rfl
@[simp] theorem answer_drawn (i : Issued) (o : OpOutcome) (s : State) : (answer i o s).drawn = s.drawn := rfl

/-! ### issueNext -/

@[simp] theorem issueNext_cfg (r : Request) (s : State) : (issueNext r s).cfg = s.cfg := rfl
@[simp] theorem issueNext_clkOut (r : Request) (s : State) : (issueNext r s).clkOut = s.clkOut := rfl
@[simp] theorem issueNext_dioOe (r : Request) (s : State) : (issueNext r s).dioOe = s.dioOe := rfl
@[simp] theorem issueNext_dioOut (r : Request) (s : State) : (issueNext r s).dioOut = s.dioOut := rfl
@[simp] theorem issueNext_life (r : Request) (s : State) : (issueNext r s).life = s.life := rfl
@[simp] theorem issueNext_bright (r : Request) (s : State) : (issueNext r s).bright = s.bright := rfl
@[simp] theorem issueNext_buf (r : Request) (s : State) : (issueNext r s).buf = s.buf := rfl
@[simp] theorem issueNext_trace (r : Request) (s : State) : (issueNext r s).trace = s.trace := rfl
@[simp] theorem issueNext_refused (r : Request) (s : State) : (issueNext r s).refused = s.refused := rfl
@[simp] theorem issueNext_inbox (r : Request) (s : State) : (issueNext r s).inbox = r :: s.inbox := rfl
@[simp] theorem issueNext_history (r : Request) (s : State) : (issueNext r s).history = s.history := rfl
@[simp] theorem issueNext_draws (r : Request) (s : State) : (issueNext r s).draws = s.draws := rfl
@[simp] theorem issueNext_drawn (r : Request) (s : State) : (issueNext r s).drawn = s.drawn := rfl

/-! ### issue -/

@[simp] theorem issue_cfg (r : Request) (s : State) : (issue r s).cfg = s.cfg := rfl
@[simp] theorem issue_clkOut (r : Request) (s : State) : (issue r s).clkOut = s.clkOut := rfl
@[simp] theorem issue_dioOe (r : Request) (s : State) : (issue r s).dioOe = s.dioOe := rfl
@[simp] theorem issue_dioOut (r : Request) (s : State) : (issue r s).dioOut = s.dioOut := rfl
@[simp] theorem issue_life (r : Request) (s : State) : (issue r s).life = s.life := rfl
@[simp] theorem issue_bright (r : Request) (s : State) : (issue r s).bright = s.bright := rfl
@[simp] theorem issue_buf (r : Request) (s : State) : (issue r s).buf = s.buf := rfl
@[simp] theorem issue_trace (r : Request) (s : State) : (issue r s).trace = s.trace := rfl
@[simp] theorem issue_refused (r : Request) (s : State) : (issue r s).refused = s.refused := rfl
@[simp] theorem issue_inbox (r : Request) (s : State) : (issue r s).inbox = s.inbox ++ [r] := rfl
@[simp] theorem issue_history (r : Request) (s : State) : (issue r s).history = s.history := rfl
@[simp] theorem issue_draws (r : Request) (s : State) : (issue r s).draws = s.draws := rfl
@[simp] theorem issue_drawn (r : Request) (s : State) : (issue r s).drawn = s.drawn := rfl

/-! ### The power-on state -/

@[simp] theorem powerOn_cfg (c : Config) : (State.powerOn c).cfg = c := rfl
@[simp] theorem powerOn_life (c : Config) : (State.powerOn c).life = .uninitialized := rfl
@[simp] theorem powerOn_trace (c : Config) : (State.powerOn c).trace = [] := rfl
@[simp] theorem powerOn_refused (c : Config) : (State.powerOn c).refused = false := rfl
@[simp] theorem powerOn_inbox (c : Config) : (State.powerOn c).inbox = [] := rfl

end Sys2Proof.Machine
end

