-- ==== Sys2Proof/Laws/Ops.lean ====
section
/-! SUPPORT. One lemma per shared operation that says all it does; proofs cite these and do not unfold the operations. -/

namespace Sys2Proof.Machine

/-! ### The phase -/

/-- Phase Idle is the three pin registers at 1 (R25). -/
theorem phase_eq_idle_iff (s : State) :
    phase s = .idle ↔ s.clkOut = .val true ∧ s.dioOe = .val true ∧ s.dioOut = .val true := by
  unfold phase
  split
  · next c oe d h1 h2 h3 =>
    rw [h1, h2, h3]
    by_cases h : c = true ∧ oe = true ∧ d = true
    · simp [h]
    · simp only [h, if_false, Reg.val.injEq, iff_false]
      split <;> simp
  · next hne =>
    constructor
    · intro h; cases h
    · rintro ⟨h1, h2, h3⟩; exact absurd h3 (hne _ _ _ h1 h2)

/-- In a Ready session with every pin set, the phase is Open when it is not Idle (R25). -/
theorem phase_of_set (s : State) (c oe d : Bool) (hl : s.life = .ready) (h1 : s.clkOut = .val c)
    (h2 : s.dioOe = .val oe) (h3 : s.dioOut = .val d) :
    phase s = if c && oe && d then .idle else .opened := by
  unfold phase
  rw [h1, h2, h3]
  cases c <;> cases oe <;> cases d <;> simp [hl]

/-- The phase reads the pin registers and the lifecycle only (R25). -/
theorem phase_congr (s t : State) (h1 : t.clkOut = s.clkOut) (h2 : t.dioOe = s.dioOe) (h3 : t.dioOut = s.dioOut)
    (h4 : t.life = s.life) : phase t = phase s := by
  unfold phase
  rw [h1, h2, h3, h4]

/-! ### The sequences -/

/-- START_SEQ (R83). -/
theorem startSeq_eq (s : State) :
    startSeq s = { s with
      clkOut := .val true, dioOe := .val true, dioOut := .val false,
      trace := s.trace ++ Group.start.events s.cfg.dioRestore } := by
  simp [startSeq, driveClk, driveDio, Group.events]

/-- STOP_SEQ (R88). -/
theorem stopSeq_eq (s : State) :
    stopSeq s = { s with
      clkOut := .val true, dioOe := .val true, dioOut := .val true,
      trace := s.trace ++ Group.stop.events s.cfg.dioRestore } := by
  simp [stopSeq, driveClk, driveDio, Group.events]

/-- WRITE_BIT (R82). -/
theorem writeBit_eq (v : Level) (s : State) :
    writeBit v s = { s with
      clkOut := .val true, dioOe := .val true, dioOut := .val v, trace := s.trace ++ bitEvents v } := by
  simp [writeBit, driveClk, driveDio, bitEvents]

/-- READ_ACK (R82). -/
theorem readAck_eq (s : State) :
    readAck s = (drawAt s 0 == s.cfg.ackLevel, { s with
      clkOut := .val false, dioOe := .val true, dioOut := .val s.cfg.dioRestore,
      trace := s.trace ++ [.clk false, .release, .clk true, .sample (drawAt s 0), .clk false, .dio s.cfg.dioRestore],
      draws := s.draws.drop 1, drawn := s.drawn + 1 }) := by
  simp [readAck, driveClk, driveDio, releaseDio, sampleDio, drawAt]

/-- The state after a byte write (R84). -/
def afterByte (b : Byte) (s : State) : State :=
  { s with
    clkOut := .val false, dioOe := .val true, dioOut := .val s.cfg.dioRestore,
    trace := s.trace ++ (Group.byte b (drawAt s 0)).events s.cfg.dioRestore,
    draws := s.draws.drop 1, drawn := s.drawn + 1 }

/-- BYTE_SEQ (R84). -/
theorem byteSeq_eq (b : Byte) (s : State) :
    byteSeq b s = (drawAt s 0 == s.cfg.ackLevel, afterByte b s) := by
  simp [byteSeq, writeBit_eq, readAck_eq, afterByte, Group.events, wireBits, bitEvents, drawAt,
    List.range_succ]

/-- After a byte write the next answer of the device is the one that came after it. -/
@[simp] theorem drawAt_afterByte (b : Byte) (s : State) (n : Nat) : drawAt (afterByte b s) n = drawAt s (n + 1) := by
  simp only [drawAt, afterByte, List.getD_eq_getElem?_getD, List.getElem?_drop]
  rw [Nat.add_comm 1 n, Nat.add_assoc, Nat.add_comm 1 n]

@[simp] theorem afterByte_cfg (b : Byte) (s : State) : (afterByte b s).cfg = s.cfg := rfl

/-! ### Transactions -/

/-- The state after a list of byte writes. -/
def afterBytes (bytes : List Byte) (s : State) : State := bytes.foldl (fun t b => afterByte b t) s

/-- The BYTE groups of the bytes, answered by the device from sample `n` on. -/
def byteGroups (s : State) (n : Nat) : List Byte → List Group
  | [] => []
  | b :: rest => .byte b (drawAt s n) :: byteGroups s (n + 1) rest

theorem byteGroups_afterByte (b : Byte) (s : State) (n : Nat) (bytes : List Byte) :
    byteGroups (afterByte b s) n bytes = byteGroups s (n + 1) bytes := by
  induction bytes generalizing n with
  | nil => rfl
  | cons x rest ih => simp [byteGroups, ih]

/-- The BYTE groups read the device's answers only. -/
theorem byteGroups_congr (s t : State) (h : ∀ n, drawAt s n = drawAt t n) (n : Nat) (bytes : List Byte) :
    byteGroups s n bytes = byteGroups t n bytes := by
  induction bytes generalizing n with
  | nil => rfl
  | cons x rest ih => simp [byteGroups, ih, h]

/-- What a non-empty list of byte writes does, in one update. -/
theorem afterBytes_eq (b : Byte) (bytes : List Byte) (s : State) :
    afterBytes (b :: bytes) s = { s with
      clkOut := .val false, dioOe := .val true, dioOut := .val s.cfg.dioRestore,
      trace := s.trace ++ groupEvents s.cfg.dioRestore (byteGroups s 0 (b :: bytes)),
      draws := s.draws.drop (bytes.length + 1), drawn := s.drawn + (bytes.length + 1) } := by
  induction bytes generalizing b s with
  | nil => simp [afterBytes, afterByte, byteGroups, groupEvents]
  | cons x rest ih =>
    have h := ih x (afterByte b s)
    rw [byteGroups_afterByte] at h
    rw [show afterBytes (b :: x :: rest) s = afterBytes (x :: rest) (afterByte b s) from rfl, h]
    simp [afterByte, byteGroups, groupEvents, Nat.add_assoc, Nat.add_comm]

/-- SendBytes when the device acknowledges every byte (R102). -/
theorem sendBytes_acked (bytes : List Byte) (k : Nat) (s : State)
    (h : ∀ j < bytes.length, drawAt s j = s.cfg.ackLevel) :
    sendBytes k bytes s = (none, afterBytes bytes s) := by
  induction bytes generalizing k s with
  | nil => rfl
  | cons b rest ih =>
    have h0 : drawAt s 0 = s.cfg.ackLevel := h 0 (by simp)
    have hr := ih (k + 1) (afterByte b s) (fun j hj => by
      rw [drawAt_afterByte, afterByte_cfg]; exact h (j + 1) (by simpa using hj))
    simp only [sendBytes, byteSeq_eq, h0, beq_self_eq_true]
    exact hr

/-- SendBytes when byte `j` is the first that the device does not acknowledge (R102): no byte after it is sent. -/
theorem sendBytes_nacked (bytes : List Byte) (k j : Nat) (s : State) (hj : j < bytes.length)
    (hack : ∀ i < j, drawAt s i = s.cfg.ackLevel) (hnack : drawAt s j ≠ s.cfg.ackLevel) :
    sendBytes k bytes s = (some (k + j), afterBytes (bytes.take (j + 1)) s) := by
  induction bytes generalizing k j s with
  | nil => simp at hj
  | cons b rest ih =>
    cases j with
    | zero =>
      have : (drawAt s 0 == s.cfg.ackLevel) = false := by simpa using hnack
      simp [sendBytes, byteSeq_eq, this, afterBytes]
    | succ j =>
      have h0 : drawAt s 0 = s.cfg.ackLevel := hack 0 (by simp)
      have hr := ih (k + 1) j (afterByte b s) (by simpa using hj)
        (fun i hi => by rw [drawAt_afterByte, afterByte_cfg]; exact hack (i + 1) (by omega))
        (by rw [drawAt_afterByte, afterByte_cfg]; exact hnack)
      simp only [sendBytes, byteSeq_eq, h0, beq_self_eq_true]
      rw [hr, Nat.add_assoc, Nat.add_comm 1 j]
      rfl

/-- The state after a transaction in which these bytes were sent: from the start condition to the stop condition (R102). -/
def afterTxn (sent : List Byte) (s : State) : State :=
  { s with
    clkOut := .val true, dioOe := .val true, dioOut := .val true,
    trace := s.trace ++ groupEvents s.cfg.dioRestore (.start :: byteGroups s 0 sent ++ [.stop]),
    draws := s.draws.drop sent.length, drawn := s.drawn + sent.length }

/-- The start, the bytes and the stop of a transaction are one update. -/
theorem stopSeq_afterBytes (sent : List Byte) (s : State) (h : sent ≠ []) :
    stopSeq (afterBytes sent (startSeq s)) = afterTxn sent s := by
  obtain ⟨b, rest, rfl⟩ := List.exists_cons_of_ne_nil h
  have hd : ∀ n, drawAt (startSeq s) n = drawAt s n := fun n => by rw [startSeq_eq]; rfl
  rw [afterBytes_eq, stopSeq_eq, byteGroups_congr _ s hd]
  simp [startSeq_eq, afterTxn, groupEvents]

/-- TXN when every byte is acknowledged (R102). -/
theorem txn_acked (bytes : List Byte) (s : State) (hne : bytes ≠ [])
    (h : ∀ j < bytes.length, drawAt s j = s.cfg.ackLevel) : txn bytes s = (none, afterTxn bytes s) := by
  have hs := sendBytes_acked bytes 0 (startSeq s) (fun j hj => by
    have := h j hj
    rw [startSeq_eq]; simpa [drawAt] using this)
  rw [txn, hs, ← stopSeq_afterBytes bytes s hne]

/-- TXN when byte `j` is the first that is not acknowledged (R102): the bytes up to it were sent, and the bus is closed. -/
theorem txn_nacked (bytes : List Byte) (j : Nat) (s : State) (hj : j < bytes.length)
    (hack : ∀ i < j, drawAt s i = s.cfg.ackLevel) (hnack : drawAt s j ≠ s.cfg.ackLevel) :
    txn bytes s = (some j, afterTxn (bytes.take (j + 1)) s) := by
  have hs := sendBytes_nacked bytes 0 j (startSeq s) hj
    (fun i hi => by have := hack i hi; rw [startSeq_eq]; simpa [drawAt] using this)
    (by rw [startSeq_eq]; simpa [drawAt] using hnack)
  have hne : bytes.take (j + 1) ≠ [] := by
    cases bytes with
    | nil => simp at hj
    | cons b rest => simp
  rw [txn, hs, ← stopSeq_afterBytes _ s hne, Nat.zero_add]

/-- The two ends of a transaction (R102). -/
theorem txn_cases (bytes : List Byte) (s : State) (hne : bytes ≠ []) :
    (txn bytes s = (none, afterTxn bytes s) ∧ ∀ j < bytes.length, drawAt s j = s.cfg.ackLevel) ∨
    ∃ j, j < bytes.length ∧ (∀ i < j, drawAt s i = s.cfg.ackLevel) ∧ drawAt s j ≠ s.cfg.ackLevel ∧
      txn bytes s = (some j, afterTxn (bytes.take (j + 1)) s) := by
  by_cases h : ∃ j, j < bytes.length ∧ drawAt s j ≠ s.cfg.ackLevel
  · have hf := Nat.find_spec h
    have hmin : ∀ i < Nat.find h, drawAt s i = s.cfg.ackLevel := fun i hi => by
      by_contra hne'
      exact Nat.find_min h hi ⟨lt_trans hi hf.1, hne'⟩
    exact .inr ⟨Nat.find h, hf.1, hmin, hf.2, txn_nacked bytes _ s hf.1 hmin hf.2⟩
  · have hall : ∀ j < bytes.length, drawAt s j = s.cfg.ackLevel := fun j hj => by
      by_contra hne'
      exact h ⟨j, hj, hne'⟩
    exact .inl ⟨txn_acked bytes s hne hall, hall⟩

/-- In phase Idle a transaction leaves every register: it moves the trace and the device's answers only. -/
theorem afterTxn_idle (sent : List Byte) (s : State) (h : phase s = .idle) :
    afterTxn sent s = { s with
      trace := s.trace ++ groupEvents s.cfg.dioRestore (.start :: byteGroups s 0 sent ++ [.stop]),
      draws := s.draws.drop sent.length, drawn := s.drawn + sent.length } := by
  obtain ⟨h1, h2, h3⟩ := (phase_eq_idle_iff s).1 h
  simp [afterTxn, h1, h2, h3]

/-- After a transaction the phase is Idle (R102). -/
theorem phase_afterTxn (sent : List Byte) (s : State) : phase (afterTxn sent s) = .idle := by
  rw [phase_eq_idle_iff]; exact ⟨rfl, rfl, rfl⟩

/-- After a transaction the next answers of the device are those that came after its samples. -/
theorem drawAt_afterTxn (sent : List Byte) (s : State) (n : Nat) :
    drawAt (afterTxn sent s) n = drawAt s (sent.length + n) := by
  simp [drawAt, afterTxn, List.getD_eq_getElem?_getD, Nat.add_assoc]

/-! ### The gates -/

/-- The checks pass in a Ready session in phase Idle. -/
theorem commandGate_open (i : Instr) (s : State) (body : Host.Outcome State Fault Refusal) (h1 : s.life = .ready)
    (h2 : phase s = .idle) : commandGate i s body = body := by
  simp [commandGate, h1, h2]

/-- What a gated operation answers: one of the two refusals, or its body's answer (R109, R141, R144). -/
theorem commandGate_cases (i : Instr) (s : State) (body : Host.Outcome State Fault Refusal) :
    (s.life ≠ .ready ∧ commandGate i s body = refuse i .notInitialized s) ∨
    (s.life = .ready ∧ phase s ≠ .idle ∧ commandGate i s body = refuse i .commandInOpenTransaction s) ∨
    (s.life = .ready ∧ phase s = .idle ∧ commandGate i s body = body) := by
  unfold commandGate
  by_cases h1 : s.life = .ready
  · by_cases h2 : phase s = .idle
    · exact .inr (.inr ⟨h1, h2, by simp [h1, h2]⟩)
    · exact .inr (.inl ⟨h1, h2, by simp [h1, h2]⟩)
  · exact .inl ⟨h1, by simp [h1]⟩

/-- What a byte write answers (R84). -/
theorem byteWrite_cases (i : Instr) (b : Byte) (s : State) :
    (s.life ≠ .ready ∧ byteWrite i b s = refuse i .notInitialized s) ∨
    (s.life = .ready ∧ phase s ≠ .opened ∧ byteWrite i b s = refuse i .byteOutsideTransaction s) ∨
    (s.life = .ready ∧ phase s = .opened ∧
      byteWrite i b s = finish i (.ack (drawAt s 0 == s.cfg.ackLevel)) (afterByte b s)) := by
  unfold byteWrite
  by_cases h1 : s.life = .ready
  · by_cases h2 : phase s = .opened
    · exact .inr (.inr ⟨h1, h2, by simp [h1, h2, byteSeq_eq]⟩)
    · exact .inr (.inl ⟨h1, h2, by simp [h1, h2]⟩)
  · exact .inl ⟨h1, by simp [h1]⟩

/-- What a transaction of an operation answers (R102, R108). -/
theorem transact_cases (i : Instr) (t : Nat) (bytes : List Byte) (s : State)
    (andThen : State → Host.Outcome State Fault Refusal) (hne : bytes ≠ []) :
    (transact i t bytes s andThen = andThen (afterTxn bytes s) ∧ ∀ j < bytes.length, drawAt s j = s.cfg.ackLevel) ∨
    ∃ j, j < bytes.length ∧ (∀ n < j, drawAt s n = s.cfg.ackLevel) ∧ drawAt s j ≠ s.cfg.ackLevel ∧
      transact i t bytes s andThen = raise i (.busError t j) (afterTxn (bytes.take (j + 1)) s) := by
  rcases txn_cases bytes s hne with ⟨h, ha⟩ | ⟨j, hj, ha, hn, h⟩
  · exact .inl ⟨by rw [transact, h], ha⟩
  · exact .inr ⟨j, hj, ha, hn, by rw [transact, h]⟩

/-! ### Buffers and fields -/

@[simp] theorem bufferByte_withByte_same (b : Buffer) (j : Fin 4) (x : Byte) : bufferByte (withByte b j x) j = x := by
  fin_cases j <;> rfl

/-- Replacing a byte leaves the others (R128, R153). -/
theorem bufferByte_withByte_of_ne (b : Buffer) (j k : Fin 4) (x : Byte) (h : k ≠ j) :
    bufferByte (withByte b j x) k = bufferByte b k := by
  fin_cases j <;> fin_cases k <;> first | rfl | exact absurd rfl h

/-- Two buffers with the same four bytes are the same. -/
theorem buffer_ext (a b : Buffer) (h : ∀ j, bufferByte a j = bufferByte b j) : a = b := by
  cases a; cases b
  have h0 := h 0; have h1 := h 1; have h2 := h 2; have h3 := h 3
  simp [bufferByte] at h0 h1 h2 h3
  simp [h0, h1, h2, h3]

end Sys2Proof.Machine
end

