-- ==== Sys2Proof/Laws/Exec.lean ====
section
/-! SUPPORT. What an instruction can do, said once: the inversion lemma of `exec`, and that of `step`. -/

namespace Sys2Proof.Machine

/-- The next states that `exec i s` can answer, each with what holds of `i` and `s` when it does. -/
inductive Effect (i : Instr) (s : State) : State → Prop
  /-- a refusal (R173) -/
  | refused (r : RefuseReason) : Effect i s { answer (.op i) (.refusal r) s with refused := true }
  /-- an argument error, before any line event (R174 step 4) -/
  | argument (e : OpError) (he : e = .invalidArgument ∨ e = .outOfRange) : Effect i s (answer (.op i) (.error e) s)
  /-- the value of an encoder operation (R123) -/
  | value (v : OpValue) : Effect i s (answer (.op i) (.ok v) s)
  /-- BUS_START -/
  | started (hi : i = .busStart) (hr : s.life = .ready) (hp : phase s = .idle) :
      Effect i s (answer (.op i) (.ok .unit) (startSeq s))
  /-- BUS_STOP -/
  | stopped (hi : i = .busStop) (hr : s.life = .ready) : Effect i s (answer (.op i) (.ok .unit) (stopSeq s))
  /-- a byte write -/
  | wrote (b : Byte) (hr : s.life = .ready) (hp : phase s = .opened) :
      Effect i s (answer (.op i) (.ok (.ack (drawAt s 0 == s.cfg.ackLevel))) (afterByte b s))
  /-- a command that was acknowledged in full -/
  | sent (bytes : List Byte) (hne : bytes ≠ []) (hr : s.life = .ready) (hp : phase s = .idle) :
      Effect i s (answer (.op i) (.ok .unit) (afterTxn bytes s))
  /-- BusError in the operation's first transaction -/
  | failed (bytes : List Byte) (hne : bytes ≠ []) (k : Nat) (hk : k ≤ 4) (hr : s.life = .ready) (hp : phase s = .idle) :
      Effect i s (answer (.op i) (.error (.busError 0 k)) (afterTxn bytes s))
  /-- BusError in the second transaction of a display write -/
  | failedSecond (bytes more : List Byte) (hne : bytes ≠ []) (hne2 : more ≠ []) (k : Nat) (hk : k ≤ 4)
      (hr : s.life = .ready) (hp : phase s = .idle) :
      Effect i s (answer (.op i) (.error (.busError 1 k)) (afterTxn more (afterTxn bytes s)))
  /-- a display write that was acknowledged in full (R145) -/
  | displayed (bytes more : List Byte) (hne : bytes ≠ []) (hne2 : more ≠ []) (b : Buffer)
      (hi : (∃ v f, i = .sesSetNumber v f) ∨ (∃ v e m, i = .sesSetNumberInd v e m) ∨ ∃ j r, i = .sesSetRawSegment j r)
      (hr : s.life = .ready) (hp : phase s = .idle) :
      Effect i s (answer (.op i) (.ok .unit) { afterTxn more (afterTxn bytes s) with buf := .val b })
  /-- SES_SET_BRIGHTNESS, acknowledged (R157) -/
  | brightened (bytes : List Byte) (hne : bytes ≠ []) (level : Int) (hi : i = .sesSetBrightness level)
      (hok : brightnessOk s.cfg level = true) (hr : s.life = .ready) (hp : phase s = .idle) :
      Effect i s (answer (.op i) (.ok .unit) { afterTxn bytes s with bright := .val level })
  /-- SES_INIT (R142) -/
  | initialised (hi : i = .sesInit) (hu : s.life = .uninitialized) :
      Effect i s (answer (.op i) (.ok .unit)
        { driveDio true (driveClk true s) with
          bright := .val s.cfg.defaultBrightness, buf := .val zeroBuffer, life := .ready })

theorem Effect.of_eq {i : Instr} {s t u : State} (h : Effect i s u)
    (he : (Host.Outcome.next u : Host.Outcome State Fault Refusal) = .next t) : Effect i s t := by
  cases he; exact h

/-- A gated body's effect is the operation's. -/
theorem commandGate_effect {i : Instr} {s t : State} {body : Host.Outcome State Fault Refusal}
    (h : commandGate i s body = .next t) (hb : s.life = .ready → phase s = .idle → body = .next t → Effect i s t) :
    Effect i s t := by
  rcases commandGate_cases i s body with ⟨-, he⟩ | ⟨-, -, he⟩ | ⟨hr, hp, he⟩
  · rw [he] at h; exact (Effect.refused _).of_eq h
  · rw [he] at h; exact (Effect.refused _).of_eq h
  · rw [he] at h; exact hb hr hp h

/-- A byte write's effect. -/
theorem byteWrite_effect {i : Instr} {b : Byte} {s t : State} (h : byteWrite i b s = .next t) : Effect i s t := by
  rcases byteWrite_cases i b s with ⟨-, he⟩ | ⟨-, -, he⟩ | ⟨hr, hp, he⟩
  · rw [he] at h; exact (Effect.refused _).of_eq h
  · rw [he] at h; exact (Effect.refused _).of_eq h
  · rw [he] at h; exact (Effect.wrote b hr hp).of_eq h

/-- The first transaction's failure, or what follows it. -/
theorem transact_effect {i : Instr} {bytes : List Byte} {s t : State}
    {andThen : State → Host.Outcome State Fault Refusal} (hne : bytes ≠ []) (hlen : bytes.length ≤ 5)
    (hr : s.life = .ready) (hp : phase s = .idle) (h : transact i 0 bytes s andThen = .next t)
    (hb : andThen (afterTxn bytes s) = .next t → Effect i s t) : Effect i s t := by
  rcases transact_cases i 0 bytes s andThen hne with ⟨he, -⟩ | ⟨j, hj, -, -, he⟩
  · rw [he] at h; exact hb h
  · rw [he] at h
    refine (Effect.failed _ ?_ j (by omega) hr hp).of_eq h
    cases bytes with
    | nil => exact absurd rfl hne
    | cons b rest => simp

/-- A display write's effect (R145). -/
theorem writeDisplay_effect {i : Instr} {b : Buffer} {s t : State}
    (hi : (∃ v f, i = .sesSetNumber v f) ∨ (∃ v e m, i = .sesSetNumberInd v e m) ∨ ∃ j r, i = .sesSetRawSegment j r)
    (hr : s.life = .ready) (hp : phase s = .idle) (h : writeDisplay i b s = .next t) : Effect i s t := by
  unfold writeDisplay at h
  refine transact_effect (by simp) (by simp) hr hp h fun h1 => ?_
  rcases transact_cases i 1 (s.cfg.baseAddr :: bufferBytes b) (afterTxn [s.cfg.dataCmdAuto] s)
      (fun s2 => finish i .unit { s2 with buf := .val b }) (by simp) with ⟨he, -⟩ | ⟨j, hj, -, -, he⟩
  · rw [he] at h1
    exact (Effect.displayed [s.cfg.dataCmdAuto] _ (by simp) (by simp) b hi hr hp).of_eq h1
  · rw [he] at h1
    exact (Effect.failedSecond [s.cfg.dataCmdAuto] _ (by simp) (by simp) j
      (by simp [bufferBytes] at hj; omega) hr hp).of_eq h1

/-- The errors of the encoder are argument errors. -/
theorem encodeNumber_error {c : Config} {v : Int} {b : Bool} {e : OpError} (h : encodeNumber c v b = .error e) :
    e = .outOfRange := by
  unfold encodeNumber at h
  split at h <;> cases h
  rfl

/-- Every next state that an instruction answers is one of the effects. -/
theorem exec_effect {i : Instr} {s t : State} (h : exec i s = .next t) : Effect i s t := by
  cases i with
  | busStart =>
    simp only [exec, execBusStart] at h
    split at h
    · exact (Effect.refused _).of_eq h
    · split at h
      · exact (Effect.refused _).of_eq h
      · next h1 h2 => exact (Effect.started rfl (not_not.1 h1) (not_not.1 h2)).of_eq h
  | busStop =>
    simp only [exec, execBusStop] at h
    split at h
    · exact (Effect.refused _).of_eq h
    · next h1 => exact (Effect.stopped rfl (not_not.1 h1)).of_eq h
  | busWriteByte b => exact byteWrite_effect h
  | cmdSetDataMode auto =>
    exact commandGate_effect h fun hr hp hb => transact_effect (by simp) (by simp) hr hp hb fun h1 =>
      (Effect.sent _ (by simp) hr hp).of_eq h1
  | cmdSetBrightness level on =>
    refine commandGate_effect h fun hr hp hb => ?_
    split at hb
    · exact (Effect.argument _ (.inl rfl)).of_eq hb
    · exact transact_effect (by simp) (by simp) hr hp hb fun h1 => (Effect.sent _ (by simp) hr hp).of_eq h1
  | cmdWriteDigits base segments =>
    exact commandGate_effect h fun hr hp hb => transact_effect (by simp) (by simp [bufferBytes]) hr hp hb fun h1 =>
      (Effect.sent _ (by simp) hr hp).of_eq h1
  | encDigit value blank =>
    simp only [exec, execEncDigit, encodeDigit] at h
    split at h
    · exact (Effect.value _).of_eq h
    · next e he =>
      refine (Effect.argument e ?_).of_eq h
      split at he
      · cases he
      · split at he <;> cases he
        exact .inl rfl
  | encNumber value suppress =>
    simp only [exec, execEncNumber] at h
    split at h
    · exact (Effect.value _).of_eq h
    · next e he => exact (Effect.argument e (.inr (encodeNumber_error he))).of_eq h
  | encApplyIndicator buffer d p enabled =>
    simp only [exec, execEncApplyIndicator, applyIndicator] at h
    split at h
    · exact (Effect.value _).of_eq h
    · next e he =>
      refine (Effect.argument e ?_).of_eq h
      split at he <;> cases he
      exact .inl rfl
  | sesInit =>
    simp only [exec, execSesInit] at h
    split at h
    · exact (Effect.refused _).of_eq h
    · next h1 =>
      refine (Effect.initialised rfl ?_).of_eq h
      cases hl : s.life with
      | uninitialized => rfl
      | ready => exact absurd hl h1
  | sesSetNumber value blank =>
    refine commandGate_effect h fun hr hp hb => ?_
    split at hb
    · next e he => exact (Effect.argument _ (.inr (encodeNumber_error he))).of_eq hb
    · exact writeDisplay_effect (.inl ⟨_, _, rfl⟩) hr hp hb
  | sesSetNumberInd value enabled mask =>
    refine commandGate_effect h fun hr hp hb => ?_
    split at hb
    · next e he => exact (Effect.argument _ (.inr (encodeNumber_error he))).of_eq hb
    · exact writeDisplay_effect (.inr (.inl ⟨_, _, _, rfl⟩)) hr hp hb
  | sesSetRawSegment index raw =>
    refine commandGate_effect h fun hr hp hb => ?_
    split at hb
    · exact (Effect.argument _ (.inl rfl)).of_eq hb
    · exact writeDisplay_effect (.inr (.inr ⟨_, _, rfl⟩)) hr hp hb
  | sesSetBrightness level =>
    refine commandGate_effect h fun hr hp hb => ?_
    split at hb
    · exact (Effect.argument _ (.inl rfl)).of_eq hb
    · next hok =>
      exact transact_effect (by simp) (by simp) hr hp hb fun h1 =>
        (Effect.brightened _ (by simp) level rfl (by simpa using hok) hr hp).of_eq h1
  | dataCmdAuto => exact byteWrite_effect h
  | dataCmdFixed => exact byteWrite_effect h
  | displayCtrl on level => exact byteWrite_effect h
  | addrCmd a => exact byteWrite_effect h

/-- What a step can do: wait, run an instruction with the request taken, or refuse a reserved word. -/
theorem step_cases {s t : State} (h : step s = .next t) :
    (s.inbox = [] ∧ t = s) ∨
    (∃ r rest i, s.inbox = r :: rest ∧ decode s.cfg r = some i ∧ exec i { s with inbox := rest } = .next t) ∨
    (∃ w rest r, s.inbox = .host w :: rest ∧ decodeHost w = .error r ∧
      t = { answer (.reserved w) (.refusal r) { s with inbox := rest } with refused := true }) := by
  unfold step fetch at h
  split at h
  · next hf =>
    cases h
    split at hf
    · next hi => exact .inl ⟨hi, rfl⟩
    · split at hf <;> cases hf
    · split at hf <;> cases hf
  · next i s1 hf =>
    split at hf
    · cases hf
    · next w rest hi =>
      split at hf <;> cases hf
      next hd => exact .inr (.inl ⟨_, _, i, hi, by simp [decode, hd, Except.toOption], h⟩)
    · next b rest hi =>
      split at hf <;> cases hf
      next hd => exact .inr (.inl ⟨_, _, i, hi, hd, h⟩)
  · next w r s1 hf =>
    split at hf
    · cases hf
    · next w' rest hi =>
      split at hf <;> cases hf
      next hd => cases h; exact .inr (.inr ⟨_, _, _, hi, hd, rfl⟩)
    · split at hf <;> cases hf
  · cases h

end Sys2Proof.Machine
end

