-- ==== Sys2Proof/Laws/Observe.lean ====
section
/-! SUPPORT. Event groups and the transaction log: how they go over concatenation, and that reading a group's events back gives
the group. -/

namespace Sys2Proof.Machine

theorem groupEvents_append (r : Level) (g1 g2 : List Group) : groupEvents r (g1 ++ g2) = groupEvents r g1 ++ groupEvents r g2 := by
  simp [groupEvents]

/-- The log of a concatenation is the log of the second part from the log of the first (R47). -/
theorem logGroups_append (a : Level) (l : TxLog) (g1 g2 : List Group) :
    logGroups a l (g1 ++ g2) = (logGroups a l g1).bind (fun l1 => logGroups a l1 g2) := by
  induction g1 generalizing l with
  | nil => rfl
  | cons g r ih =>
    simp only [List.cons_append, logGroups]
    cases h : logGroup a l g with
    | none => rfl
    | some l1 => simp [ih]

/-- A byte is the one whose bits are on the wire (R42). -/
theorem byteOfBits_wireBits (b : Byte) : byteOfBits (wireBits b) = b := by revert b; decide

/-- Reading the events of some bits gives the bits. -/
theorem readBits_bitEvents (vs : List Level) (es : List Event) :
    readBits vs.length (vs.flatMap bitEvents ++ es) = some (vs, es) := by
  induction vs with
  | nil => rfl
  | cons v r ih => simp [bitEvents, readBits] at ih ⊢; rw [ih]

/-- Reading the events of a BYTE group gives it. -/
theorem readByte_events (restore : Level) (b : Byte) (s : Level) (rest : List Event) :
    readByte restore ((Group.byte b s).events restore ++ rest) = some (.byte b s, rest) := by
  have h := readBits_bitEvents (wireBits b)
    ([.clk false, .release, .clk true, .sample s, .clk false, .dio restore] ++ rest)
  rw [show (wireBits b).length = 8 by simp [wireBits]] at h
  simp only [readByte, Group.events, List.append_assoc, h]
  simp [byteOfBits_wireBits]

/-- Reading the events of a group gives it: no other group begins as it does (R47). -/
theorem readGroup_events (restore : Level) (g : Group) (rest : List Event) :
    readGroup restore (g.events restore ++ rest) = some (g, rest) := by
  cases g with
  | byte b s =>
    rw [← readByte_events restore b s rest]
    unfold readGroup
    split
    · next h => simp [Group.events, wireBits, bitEvents, List.range_succ] at h
    · next h => simp [Group.events, wireBits, bitEvents, List.range_succ] at h
    · next h => simp [Group.events, wireBits, bitEvents, List.range_succ] at h
    · rfl
  | _ => simp [Group.events, readGroup]

end Sys2Proof.Machine
end

