-- ==== Sys2Proof/Laws/Operands.lean ====
section
/-! SUPPORT. The range checks, the forced bits, the digits of a number, and what a configuration within the spec's bounds
gives. -/

namespace Sys2Proof.Machine

/-! ### Configurations -/

/-- The bounds of a configuration, one by one. -/
theorem configOk_bounds {c : Config} (h : configOk c = true) :
    c.brightMin = 0 ∧ c.brightMax = 7 ∧ (c.defaultBrightness = 3 ∨ c.defaultBrightness = 4) ∧
      byteClass c.baseAddr = 3 ∧ byteClass c.dataCmdAuto = 1 ∧ byteClass c.dataCmdFixed = 1 ∧ c.dataCmdAuto ≠ c.dataCmdFixed ∧ c.blankPattern = 0 := by
  simp [configOk] at h
  tauto

/-- The brightness range of such a configuration is 0..7 (R24). -/
theorem configOk_brightness {c : Config} (h : configOk c = true) (level : Int) :
    brightnessOk c level = true ↔ 0 ≤ level ∧ level ≤ 7 := by
  obtain ⟨h0, h7, -⟩ := configOk_bounds h
  simp [brightnessOk, h0, h7]

/-- No pattern of such a configuration has bit 7 set (R120). -/
theorem configOk_segTable {c : Config} (h : configOk c = true) (d : Fin 10) : (c.segTable.get d).getLsbD 7 = false := by
  simp only [configOk, Bool.and_eq_true, beq_iff_eq] at h
  have h1 := h.1.2
  rw [List.all_eq_true] at h1
  have h2 := h1 (c.segTable.get d) (by simp [Vector.get])
  simp only [patternOk, Bool.and_eq_true] at h2
  simpa [Vector.get] using h2.2

/-! ### Operands -/

/-- An index in range is the digit index it names. -/
theorem digitIndex_of_range {d : Int} (h0 : 0 ≤ d) (h3 : d ≤ 3) : ∃ j : Fin 4, digitIndex d = some j ∧ (j.val : Int) = d := by
  refine ⟨Fin.ofNat 4 d.toNat, by simp [digitIndex, h0, h3], ?_⟩
  simp [Fin.ofNat]; omega

/-- Forcing one bit changes that bit only (R128). -/
theorem forceBits_getLsbD (b : Byte) (n : Nat) (hn : n < 8) (e : Bool) (k : Nat) (hk : k < 8) :
    (forceBits b (1#8 <<< n) e).getLsbD k = if k = n then e else b.getLsbD k := by
  have h : ∀ (n k : Fin 8), (1#8 <<< n.val).getLsbD k.val = decide (k = n) := by decide
  have h1 := h ⟨n, hn⟩ ⟨k, hk⟩
  simp only [Fin.mk.injEq] at h1
  cases e
  · simp only [forceBits, Bool.false_eq_true, if_false, BitVec.getLsbD_and, BitVec.getLsbD_not, h1, hk]
    by_cases h2 : k = n <;> simp [h2]
  · simp only [forceBits, if_true, BitVec.getLsbD_or, h1]
    by_cases h2 : k = n <;> simp [h2]

/-! ### Numbers -/

/-- Digit `d[j]` is decimal digit `3 − j` (R125). -/
theorem digitOf_eq (n : Nat) (j : Fin 4) : digitOf n j = Fin.ofNat 10 (n / 10 ^ (3 - j.val) % 10) := by
  fin_cases j <;> simp [digitOf]
  apply Fin.ext; simp

/-- A leading zero: not the ones place, and no significant digit down to it (R126). -/
theorem isLeading_iff (n : Nat) (h : n ≤ 9999) (j : Fin 4) : isLeading n j = true ↔ j.val ≤ 2 ∧ n / 10 ^ (3 - j.val) = 0 := by
  fin_cases j <;>
    simp [isLeading, List.finRange, List.ofFn, Fin.foldr, Fin.foldr.loop, digitOf, Fin.ofNat, Fin.ext_iff] <;> omega

/-- The buffer of a number that four digits show, byte by byte (R124). -/
theorem encodeNumber_of_range (c : Config) {v : Int} (f : Bool) (h0 : 0 ≤ v) (h9 : v ≤ 9999) :
    ∃ b, encodeNumber c v f = .ok b ∧ ∀ j, bufferByte b j = numberByte c v.toNat f j := by
  have h : fourDigitNumber v = some v.toNat := by simp [fourDigitNumber, Config.numberMax, h0, h9]
  exact ⟨_, by rw [encodeNumber, h], fun j => by fin_cases j <;> rfl⟩

/-- A number that four digits do not show (R124). -/
theorem encodeNumber_out_of_range (c : Config) {v : Int} (f : Bool) (h : v < 0 ∨ 9999 < v) :
    encodeNumber c v f = .error .outOfRange := by
  have hn : fourDigitNumber v = none := by
    rw [fourDigitNumber, if_neg]
    simp only [Config.numberMax]
    omega
  rw [encodeNumber, hn]

end Sys2Proof.Machine
end

