-- ==== Sys2Proof/Laws/PerInstr.lean ====
section
/-! SUPPORT. One family over all instructions: the host word that carries an instruction has zeros in its reserved and unused
fields (R67). -/

namespace Sys2Proof.Laws.HostWord

/-- A host word that the encoder gives for the instruction has `FR` 0 and no bit set outside the fields its opcode uses (R67). -/
def Statement (i : Instr) : Prop :=
  ∀ (c : Config) (w : Word), encode c i = .host w → (splitWord w).fr = 0 ∧ unusedSet (splitWord w) = false

/-- It is enough to look at the fields that the word is made of. -/
theorem of_fields {i : Instr} {f : Fields} (h : ∀ c : Config, encode c i = .host (packWord f)) (hr : f.fr = 0)
    (hu : unusedSet f = false) : Statement i := by
  intro c w hw
  rw [h c] at hw
  cases hw
  rw [splitWord_packWord]
  exact ⟨hr, hu⟩

theorem busStart : Statement .busStart := of_fields (fun _ => rfl) rfl rfl

theorem busStop : Statement .busStop := of_fields (fun _ => rfl) rfl rfl

theorem busWriteByte (b : Byte) : Statement (.busWriteByte b) := of_fields (fun _ => rfl) rfl rfl

theorem cmdSetDataMode (auto : Bool) : Statement (.cmdSetDataMode auto) := of_fields (fun _ => rfl) rfl rfl

theorem cmdSetBrightness (level : Int) (on : Bool) : Statement (.cmdSetBrightness level on) := of_fields (fun _ => rfl) rfl rfl

theorem cmdWriteDigits (base : Byte) (segments : Buffer) : Statement (.cmdWriteDigits base segments) := of_fields (fun _ => rfl) rfl rfl

theorem encDigit (value : Int) (blank : Bool) : Statement (.encDigit value blank) := of_fields (fun _ => rfl) rfl rfl

theorem encNumber (value : Int) (suppress : Bool) : Statement (.encNumber value suppress) := of_fields (fun _ => rfl) rfl rfl

theorem encApplyIndicator (buffer : Buffer) (d p : Int) (enabled : Bool) : Statement (.encApplyIndicator buffer d p enabled) := of_fields (fun _ => rfl) rfl rfl

theorem sesInit : Statement .sesInit := of_fields (fun _ => rfl) rfl rfl

theorem sesSetNumber (value : Int) (blank : Bool) : Statement (.sesSetNumber value blank) := of_fields (fun _ => rfl) rfl rfl

theorem sesSetNumberInd (value : Int) (enabled : Bool) (mask : Byte) : Statement (.sesSetNumberInd value enabled mask) := of_fields (fun _ => rfl) rfl rfl

theorem sesSetRawSegment (index : Int) (raw : Byte) : Statement (.sesSetRawSegment index raw) := of_fields (fun _ => rfl) rfl rfl

theorem sesSetBrightness (level : Int) : Statement (.sesSetBrightness level) := of_fields (fun _ => rfl) rfl rfl

theorem dataCmdAuto : Statement .dataCmdAuto := fun _ _ h => by cases h

theorem dataCmdFixed : Statement .dataCmdFixed := fun _ _ h => by cases h

theorem displayCtrl (on : Bool) (level : BitVec 3) : Statement (.displayCtrl on level) := fun _ _ h => by cases h

theorem addrCmd (a : BitVec 4) : Statement (.addrCmd a) := fun _ _ h => by cases h

end Sys2Proof.Laws.HostWord
end

