-- ==== Sys2Proof/Tests/Slice0.lean ====
section
/-! SUPPORT. The model's own tests: well-formedness, decoding of words written out from the spec's encodings, one or two steps
of each instruction against spec/95_test_vectors.md, and a witness for the hypotheses of each statement. -/

namespace Sys2Proof.Tests

open Sys2Proof.Machine Sys2Proof.Claims

/-! ### Helpers -/

/-- The state after SES_INIT from power-on, as R142's example gives it, with the device's answers to come. -/
def ready (draws : List Level) : State :=
  { State.reset with
    clkOut := .val true, dioOe := .val true, dioOut := .val true, life := .ready, bright := .val 3, buf := .val ⟨0, 0, 0, 0⟩,
    trace := [.clk true, .dio true], draws := draws }

/-- The state after SES_INIT and BUS_START. -/
def opened (draws : List Level) : State :=
  { ready draws with
    dioOut := .val false, trace := [.clk true, .dio true, .dio true, .clk true, .dio false] }

/-- A device that acknowledges every byte, for as many as an operation sends. -/
def acks : List Level := [false, false, false, false, false, false]

/-- The next state of an outcome, if it has one. -/
def nextOf : Host.Outcome State Fault Refusal → Option State
  | .next s => some s
  | .fault _ => none
  | .refused _ => none

/-- The result word of an instruction. -/
def result (i : Instr) (s : State) : Option Word := (nextOf (exec i s)).bind lastResult

/-- The events that an instruction appends. -/
def gained (i : Instr) (s : State) : Option (List Event) := (nextOf (exec i s)).map fun t => t.trace.drop s.trace.length

/-- The closed transactions of the log after an instruction. -/
def sent (i : Instr) (s : State) : Option (List Transaction) :=
  ((nextOf (exec i s)).bind txlog).map TxLog.closed

/-- The result word, the number of events appended, `BUF` and `BRIGHT` after an instruction. -/
def ends (i : Instr) (s : State) : Option (Option Word × Nat × Reg Buffer × Reg Int) :=
  (nextOf (exec i s)).map fun t => (lastResult t, t.trace.length - s.trace.length, t.buf, t.bright)

/-- The outcome of an instruction, and whether the mark is set. -/
def marked (i : Instr) (s : State) : Option (Option OpOutcome × Bool) :=
  (nextOf (exec i s)).map fun t => (lastOutcome t, t.refused)

/-! ### Well-formedness: an ill-formed term for each check -/

theorem test_wf_cmdSetBrightness : (Instr.cmdSetBrightness 32768 true).wf = false := by decide
theorem test_wf_encDigit_value : (Instr.encDigit (-32769) false).wf = false := by decide
theorem test_wf_encDigit_blank : (Instr.encDigit 1 true).wf = false := by decide
theorem test_wf_encNumber : (Instr.encNumber 32768 true).wf = false := by decide
theorem test_wf_encApplyIndicator_d : (Instr.encApplyIndicator ⟨0, 0, 0, 0⟩ 4 0 true).wf = false := by decide
theorem test_wf_encApplyIndicator_d_low : (Instr.encApplyIndicator ⟨0, 0, 0, 0⟩ (-1) 0 true).wf = false := by decide
theorem test_wf_encApplyIndicator_p : (Instr.encApplyIndicator ⟨0, 0, 0, 0⟩ 0 8 true).wf = false := by decide
theorem test_wf_encApplyIndicator_p_low : (Instr.encApplyIndicator ⟨0, 0, 0, 0⟩ 0 (-1) true).wf = false := by decide
theorem test_wf_sesSetNumber : (Instr.sesSetNumber 32768 true).wf = false := by decide
theorem test_wf_sesSetNumberInd : (Instr.sesSetNumberInd (-32769) true 0).wf = false := by decide
theorem test_wf_sesSetRawSegment : (Instr.sesSetRawSegment 32768 0).wf = false := by decide
theorem test_wf_sesSetBrightness : (Instr.sesSetBrightness (-32769)).wf = false := by decide
theorem test_wf_bounds : (Instr.sesSetBrightness (-32768)).wf = true ∧ (Instr.encNumber 32767 false).wf = true := by decide

/-! ### Decoding: a word for each constructor, written out from R61 and R62, R71 to R73 or from R76's table -/

theorem test_decode_busStart : decodeTableWord 64 0x0000000000000001 = some .busStart := by decide
theorem test_decode_busStop : decodeTableWord 64 0x0000000000000002 = some .busStop := by decide
theorem test_decode_busWriteByte : decodeTableWord 64 0x000000000000A503 = some (.busWriteByte 0xA5) := by decide
theorem test_decode_cmdSetDataMode : decodeTableWord 64 0x0000000000000014 = some (.cmdSetDataMode true) := by decide
theorem test_decode_cmdSetBrightness :
    decodeTableWord 64 0x0000000000030005 = some (.cmdSetBrightness 3 false) := by decide
theorem test_decode_cmdWriteDigits :
    decodeTableWord 64 0x6D3F6F000000C006 = some (.cmdWriteDigits 0xC0 ⟨0x00, 0x6F, 0x3F, 0x6D⟩) := by decide
theorem test_decode_encDigit : decodeTableWord 64 0x00000000FFFF0007 = some (.encDigit (-1) false) := by decide
theorem test_decode_encDigit_blank : decodeTableWord 64 0x0000000000000027 = some (.encDigit 0 true) := by decide
theorem test_decode_encNumber : decodeTableWord 64 0x0000000027100018 = some (.encNumber 10000 true) := by decide
theorem test_decode_encApplyIndicator : decodeTableWord 64 0x4F5B063F00003009 =
    some (.encApplyIndicator ⟨0x3F, 0x06, 0x5B, 0x4F⟩ 3 0 false) := by decide
theorem test_decode_sesInit : decodeTableWord 64 0x000000000000000A = some .sesInit := by decide
theorem test_decode_sesSetNumber : decodeTableWord 64 0x000000000389000B = some (.sesSetNumber 905 false) := by decide
theorem test_decode_sesSetNumberInd :
    decodeTableWord 64 0x000000000389801C = some (.sesSetNumberInd 905 true 0x80) := by decide
theorem test_decode_sesSetRawSegment :
    decodeTableWord 64 0x0000000000027F0D = some (.sesSetRawSegment 2 0x7F) := by decide
theorem test_decode_sesSetBrightness :
    decodeTableWord 64 0x00000000FFFF000E = some (.sesSetBrightness (-1)) := by decide
theorem test_decode_dataCmdAuto : decodeTableWord 8 0x40 = some .dataCmdAuto := by decide
theorem test_decode_dataCmdFixed : decodeTableWord 8 0x44 = some .dataCmdFixed := by decide
theorem test_decode_displayCtrl : decodeTableWord 8 0x8B = some (.displayCtrl true 3) := by decide
theorem test_decode_displayCtrl_off : decodeTableWord 8 0x87 = some (.displayCtrl false 7) := by decide
theorem test_decode_addrCmd : decodeTableWord 8 0xC3 = some (.addrCmd 3) := by decide

/-- Reserved words (R67), among them L2-E6, L2-A6 and L2-A7. -/
theorem test_decode_reserved :
    decodeHost 0x0000000000000000 = .error .reservedOpcode ∧ decodeHost 0x000000000000000F = .error .reservedOpcode ∧
    decodeHost 0x0000000000000041 = .error .reservedField ∧ decodeHost 0x0000000000000083 = .error .reservedField ∧
    decodeHost 0x0000000000000101 = .error .reservedField ∧ decodeHost 0x0000000000010027 = .error .reservedField ∧
    decodeHost 0x0000000000000809 = .error .reservedField ∧ decodeHost 0x0000000000004009 = .error .reservedField :=
  ⟨rfl, rfl, rfl, rfl, rfl, rfl, rfl, rfl⟩

/-- A byte of no class is no wire command (R70). -/
theorem test_decode_no_wire : decodeTableWord 8 0x41 = none ∧ decodeWire Config.standard 0x90 = none := by decide

/-- Text of R75 and R76. -/
theorem test_assemble : assembleText "SES_SET_NUMBER_IND 905, on, 0x80 ; 9:05" = some (.sesSetNumberInd 905 true 0x80) ∧
    assembleText "SES_SET_BRIGHTNESS -1" = some (.sesSetBrightness (-1)) ∧ assembleText "ENC_DIGIT" = none := by
  decide

/-! ### The Bus Driver (95_test_vectors.md 2.1) -/

/-- L2-B1. -/
theorem test_busStart : gained .busStart (ready []) = some [.dio true, .clk true, .dio false] ∧
    (nextOf (exec .busStart (ready []))).map phase = some .opened := by decide

/-- L2-B9. -/
theorem test_busStart_opened :
    marked .busStart (opened []) = some (some (.refusal .startInOpenTransaction), true) := by decide

/-- L2-B3: 0xA5 is 1, 0, 1, 0, 0, 1, 0, 1 on the wire, not acknowledged. -/
theorem test_busWriteByte : gained (.busWriteByte 0xA5) (opened [true]) = some [
    .clk false, .dio true, .clk true, .clk false, .dio false, .clk true, .clk false, .dio true, .clk true,
    .clk false, .dio false, .clk true, .clk false, .dio false, .clk true, .clk false, .dio true, .clk true,
    .clk false, .dio false, .clk true, .clk false, .dio true, .clk true,
    .clk false, .release, .clk true, .sample true, .clk false, .dio false] ∧
    result (.busWriteByte 0xA5) (opened [true]) = some 0 := by decide

/-- L2-B2 and L2-B8. -/
theorem test_busWriteByte_ack : result (.busWriteByte 0x40) (opened [false]) = some 0x10 ∧
    marked (.busWriteByte 0x01) (ready []) = some (some (.refusal .byteOutsideTransaction), true) := by decide

/-- L2-B6 and L2-B7. -/
theorem test_busStop : gained .busStop (ready []) = some [.clk false, .dio false, .clk true, .dio true] ∧
    sent .busStop (ready []) = some [] ∧ sent .busStop (opened []) = some [[]] := by decide

/-- L2-B10. -/
theorem test_busStop_uninitialized :
    marked .busStop State.reset = some (some (.refusal .notInitialized), true) := by decide

/-! ### Wire commands (R71 to R73), sent as bytes -/

theorem test_dataCmdAuto :
    gained .dataCmdAuto (opened [false]) = gained (.busWriteByte 0x40) (opened [false]) := by decide
theorem test_dataCmdFixed :
    gained .dataCmdFixed (opened [false]) = gained (.busWriteByte 0x44) (opened [false]) := by decide
theorem test_displayCtrl :
    gained (.displayCtrl true 7) (opened [true]) = gained (.busWriteByte 0x8F) (opened [true]) := by decide
theorem test_addrCmd :
    gained (.addrCmd 3) (opened [false]) = gained (.busWriteByte 0xC3) (opened [false]) := by decide

/-! ### The Command Protocol (95_test_vectors.md 2.2) -/

/-- L2-C2. -/
theorem test_cmdSetDataMode : sent (.cmdSetDataMode false) (ready acks) = some [[(0x44, true)]] := by decide

/-- L2-C3. -/
theorem test_cmdSetDataMode_nack : sent (.cmdSetDataMode true) (ready [true]) = some [[(0x40, false)]] ∧
    result (.cmdSetDataMode true) (ready [true]) = some 0x1 := by decide

/-- L2-C5 and L2-C7. -/
theorem test_cmdSetBrightness : sent (.cmdSetBrightness 0 true) (ready acks) = some [[(0x88, true)]] ∧
    sent (.cmdSetBrightness 3 false) (ready [true]) = some [[(0x83, false)]] := by decide

/-- L2-C8. -/
theorem test_cmdSetBrightness_range :
    ends (.cmdSetBrightness 8 true) (ready acks) = some (some 0x2, 0, .val ⟨0, 0, 0, 0⟩, .val 3) := by decide

/-- L2-C10. -/
theorem test_cmdWriteDigits :
    sent (.cmdWriteDigits 0xC0 ⟨0x00, 0x6F, 0x3F, 0x6D⟩) (ready [false, false, true]) =
      some [[(0xC0, true), (0x00, true), (0x6F, false)]] ∧
    ends (.cmdWriteDigits 0xC0 ⟨0x00, 0x6F, 0x3F, 0x6D⟩) (ready [false, false, true]) =
      some (some 0x201, 97, .val ⟨0, 0, 0, 0⟩, .val 3) := by decide +kernel

/-- L2-C12 and L2-C13. -/
theorem test_cmdWriteDigits_base :
    sent (.cmdWriteDigits 0x12 ⟨0xFF, 0xFF, 0xFF, 0xFF⟩) (ready acks) =
      some [[(0x12, true), (0xFF, true), (0xFF, true), (0xFF, true), (0xFF, true)]] ∧
    marked (.cmdWriteDigits 0x12 ⟨0xFF, 0xFF, 0xFF, 0xFF⟩) (opened acks) =
      some (some (.refusal .commandInOpenTransaction), true) := by decide +kernel

/-! ### The Segment Encoder (95_test_vectors.md 1 and 2.3) -/

/-- L1-1 and L2-E1. -/
theorem test_encDigit : result (.encDigit 8 false) State.reset = some 0x00000000007F0000 ∧
    result (.encDigit 0 true) State.reset = some 0 := by decide

/-- L2-E3 and L2-E5. -/
theorem test_encDigit_range : result (.encDigit 10 false) (opened []) = some 0x2 ∧
    result (.encDigit (-1) false) (opened []) = some 0x2 := by decide

/-- L2-N5 and L2-N10. -/
theorem test_encNumber : result (.encNumber 60 true) State.reset = some 0x3F7D000000000000 ∧
    result (.encNumber 60 false) State.reset = some 0x3F7D3F3F00000000 ∧
    result (.encNumber 1005 true) State.reset = some 0x6D3F3F0600000000 := by decide

/-- L2-N13 and L2-N14. -/
theorem test_encNumber_range : result (.encNumber 10000 true) State.reset = some 0x3 ∧
    result (.encNumber (-1) false) State.reset = some 0x3 := by decide

/-- L2-A2. -/
theorem test_encApplyIndicator : result (.encApplyIndicator ⟨0x3F, 0x06, 0x5B, 0x4F⟩ 3 0 false) State.reset =
    some 0x4E5B063F00000000 := by decide

/-- L2-A3. -/
theorem test_encApplyIndicator_on : result (.encApplyIndicator ⟨0x00, 0x00, 0x00, 0x3F⟩ 1 7 true) State.reset =
    some 0x3F00800000000000 := by decide

/-! ### The Display Session (95_test_vectors.md 2.4) -/

/-- L2-S1. -/
theorem test_sesInit : ends .sesInit State.reset = some (some 0, 2, .val ⟨0, 0, 0, 0⟩, .val 3) ∧
    gained .sesInit State.reset = some [.clk true, .dio true] := by decide

/-- L2-S2. -/
theorem test_sesInit_again :
    marked .sesInit (ready []) = some (some (.refusal .alreadyInitialized), true) := by decide

/-- L2-S3. -/
theorem test_sesSetNumber :
    ends (.sesSetNumber 905 true) (ready acks) = some (some 0, 194, .val ⟨0x00, 0x6F, 0x3F, 0x6D⟩, .val 3) ∧
    sent (.sesSetNumber 905 true) (ready acks) =
      some [[(0x40, true)], [(0xC0, true), (0x00, true), (0x6F, true), (0x3F, true), (0x6D, true)]] := by decide +kernel

/-- L2-S9 and L2-S8. -/
theorem test_sesSetNumber_nack :
    ends (.sesSetNumber 1234 false) (ready [false, false, false, false, false, true]) =
      some (some 0x1401, 194, .val ⟨0, 0, 0, 0⟩, .val 3) ∧
    ends (.sesSetNumber 1234 false) (ready [false, true]) = some (some 0x1001, 74, .val ⟨0, 0, 0, 0⟩, .val 3) :=
  ⟨by decide +kernel, by decide +kernel⟩

/-- L2-S10. -/
theorem test_sesSetNumberInd : ends (.sesSetNumberInd 905 true 0x80) (ready acks) =
    some (some 0, 194, .val ⟨0x00, 0xEF, 0x3F, 0x6D⟩, .val 3) := by decide +kernel

/-- L2-S13. -/
theorem test_sesSetNumberInd_off : ends (.sesSetNumberInd 905 false 0xFF) (ready acks) =
    some (some 0, 194, .val ⟨0x00, 0x00, 0x3F, 0x6D⟩, .val 3) := by decide +kernel

/-- L2-S16, with a buffer that is not blank. -/
theorem test_sesSetRawSegment :
    ends (.sesSetRawSegment 2 0x7F) { ready acks with buf := .val ⟨1, 2, 3, 4⟩ } =
      some (some 0, 194, .val ⟨1, 2, 0x7F, 4⟩, .val 3) := by decide +kernel

/-- L2-S17 and L2-S18. -/
theorem test_sesSetRawSegment_range :
    ends (.sesSetRawSegment 4 0xFF) (ready acks) = some (some 0x2, 0, .val ⟨0, 0, 0, 0⟩, .val 3) ∧
    ends (.sesSetRawSegment (-1) 0) (ready acks) = some (some 0x2, 0, .val ⟨0, 0, 0, 0⟩, .val 3) :=
  ⟨by decide, by decide⟩

/-- L2-S20. -/
theorem test_sesSetBrightness : ends (.sesSetBrightness 0) (ready acks) =
    some (some 0, 37, .val ⟨0, 0, 0, 0⟩, .val 0) ∧
    sent (.sesSetBrightness 0) (ready acks) = some [[(0x88, true)]] := by decide

/-- L2-S22. -/
theorem test_sesSetBrightness_nack : ends (.sesSetBrightness 5) (ready [true]) =
    some (some 0x1, 37, .val ⟨0, 0, 0, 0⟩, .val 3) := by decide

/-! ### A step -/

/-- A word placed at reset is run by the first step (R7). -/
theorem test_step_sesInit :
    (nextOf (step (State.reset.withFetchWord 64 0xA))).map blockState = some (blockState (ready [])) := by decide

/-- A reserved word is refused at its step (R67). -/
theorem test_step_reserved : (nextOf (step (State.reset.withFetchWord 64 0xF))).map (fun t => (t.refused, t.inbox, t.trace)) =
    some (true, [], []) := by decide

/-! ### Witnesses: states and operands that meet the hypotheses of each statement -/

theorem witness_readyIdle : ReadyIdle (ready []) := by decide
theorem witness_readyOpen : (opened []).life = .ready ∧ phase (opened []) = .opened ∧ phase (opened []) ≠ .idle := by
  decide
theorem witness_uninitialized : State.reset.life = .uninitialized ∧ State.reset.clkOut = .unset := by decide

/-- Every end of a transaction that the statements name. -/
theorem witness_answers :
    AcksFirst (ready acks) 6 ∧ AcksFirst (ready acks) 5 ∧ AcksFirst (ready acks) 1 ∧ FirstNack (ready [true]) 0 ∧
    FirstNack (ready [false, true]) 1 ∧ FirstNack (ready [false, false, true]) 2 ∧
    FirstNack (ready [false, false, false, true]) 3 ∧ FirstNack (ready [false, false, false, false, true]) 4 ∧
    FirstNack (ready [false, false, false, false, false, true]) 5 ∧ ReadyIdle (ready acks) ∧ ReadyIdle (ready [true]) := by
  decide

theorem witness_PhaseDerivedFromPins :
    State.reset.clkOut = .unset ∧ State.reset.dioOe = .unset ∧ State.reset.dioOut = .unset ∧
    phase (ready []) = .idle ∧
    (opened []).life = .ready ∧ (opened []).clkOut ≠ .unset ∧ (opened []).dioOe ≠ .unset ∧ (opened []).dioOut ≠ .unset ∧
      phase (opened []) ≠ .idle := by decide

theorem witness_PinRegistersDecideLines :
    (ready []).dioOe = .val true ∧ (releaseDio (ready [])).dioOe = .val false := by decide

theorem witness_BusStartMeaning :
    State.reset.life = .uninitialized ∧ ((opened []).life = .ready ∧ phase (opened []) ≠ .idle) ∧ ReadyIdle (ready []) := by
  decide

theorem witness_BusWriteByteMeaning :
    State.reset.life = .uninitialized ∧ ((ready []).life = .ready ∧ phase (ready []) ≠ .opened) ∧
    ((opened [true]).life = .ready ∧ phase (opened [true]) = .opened) := by decide

theorem witness_BusStopMeaning :
    State.reset.life = .uninitialized ∧ ((ready []).life = .ready ∧ phase (ready []) = .idle) ∧ (opened []).life = .ready := by
  decide

/-- Each wire command at a least and a greatest operand, with the states of its clauses. -/
theorem witness_WireCommandsWriteTheirByte :
    (0x40 : Byte) = (opened []).cfg.dataCmdAuto ∧ (0x44 : Byte) = (opened []).cfg.dataCmdFixed ∧
    ((0x80 : Byte) = displayControl false (0 : BitVec 3).toNat ∧
      (0x80 : Byte) = BitVec.ofNat 8 (0x80 + 8 * false.toNat + (0 : BitVec 3).toNat)) ∧
    ((0x8F : Byte) = displayControl true (7 : BitVec 3).toNat ∧
      (0x8F : Byte) = BitVec.ofNat 8 (0x80 + 8 * true.toNat + (7 : BitVec 3).toNat)) ∧
    (0xC0 : Byte) = BitVec.ofNat 8 (0xC0 + (0 : BitVec 4).toNat) ∧ (0xCF : Byte) = BitVec.ofNat 8 (0xC0 + (15 : BitVec 4).toNat) ∧
    State.reset.life = .uninitialized ∧ ((ready []).life = .ready ∧ phase (ready []) ≠ .opened) ∧
    ((opened []).life = .ready ∧ phase (opened []) = .opened) := by decide

theorem witness_ByteWriteIgnoresTheDraw :
    isByteWrite (.busWriteByte 0x40) = true ∧ isByteWrite (.addrCmd 15) = true ∧
    (nextOf (exec (.busWriteByte 0x40) (opened [true]))).isSome = true ∧
    (nextOf (exec (.busWriteByte 0x40) { opened [true] with draws := [false], drawn := 0 })).isSome = true := by
  decide

theorem witness_NoSpuriousConditions :
    ((ready []).life = .ready ∧ (ready []).clkOut = .val true ∧ (ready []).dioOe = .val true ∧
      (ready []).dioOut = .val true ∧ phase (ready []) = .idle ∧
      gained .busStart (ready []) = some [.dio true, .clk true, .dio false]) ∧
    ((opened [false]).life = .ready ∧ (opened [false]).clkOut = .val true ∧ (opened [false]).dioOe = .val true ∧
      (opened [false]).dioOut = .val false ∧ (nextOf (exec (.busWriteByte 0xFF) (opened [false]))).isSome = true ∧
      (nextOf (exec .busStop (opened [false]))).isSome = true) := by decide

/-- The clauses common to command and session operations. -/
theorem witness_Gated : State.reset.life = .uninitialized ∧ ((opened []).life = .ready ∧ phase (opened []) ≠ .idle) := by
  decide

theorem witness_CmdSetDataModeMeaning :
    ReadyIdle (ready acks) ∧ (0x40 : Byte) = (ready acks).cfg.dataCmdAuto ∧ (0x44 : Byte) = (ready acks).cfg.dataCmdFixed ∧
    AcksFirst (ready acks) 1 ∧ FirstNack (ready [true]) 0 ∧ ReadyIdle (ready [true]) := by decide

/-- The levels on both sides of both bounds. -/
theorem witness_CmdSetBrightnessMeaning :
    ReadyIdle (ready acks) ∧ configOk (ready acks).cfg = true ∧ FitsField (-32768) ∧ FitsField 32767 ∧
    (-1 < (ready acks).cfg.brightMin ∨ (ready acks).cfg.brightMax < -1) ∧
    (8 < (ready acks).cfg.brightMin ∨ (ready acks).cfg.brightMax < 8) ∧
    ((ready acks).cfg.brightMin ≤ 0 ∧ 0 ≤ (ready acks).cfg.brightMax) ∧
    ((ready acks).cfg.brightMin ≤ 7 ∧ 7 ≤ (ready acks).cfg.brightMax) ∧
    AcksFirst (ready acks) 1 ∧ FirstNack (ready [true]) 0 := by
  decide

theorem witness_CmdWriteDigitsMeaning :
    ReadyIdle (ready acks) ∧ AcksFirst (ready acks) 5 ∧ FirstNack (ready [true]) 0 ∧
    FirstNack (ready [false, false, false, false, true]) 4 := by decide

theorem witness_DeniedFirstByteEndsTheOperation :
    isCommandOrSession (.sesSetNumber 905 true) = true ∧ isCommandOrSession (.cmdSetBrightness 8 true) = true ∧
    isCommandOrSession (.encNumber 0 true) = false ∧ ReadyIdle (ready [true]) ∧ FirstNack (ready [true]) 0 := by
  decide

theorem witness_EncDigitMeaning :
    FitsField (-32768) ∧ FitsField 32767 ∧ (0 : Int) = (0 : Fin 10).val ∧ (9 : Int) = (9 : Fin 10).val ∧ ((-1 : Int) < 0 ∨ 9 < (-1 : Int)) ∧
    ((10 : Int) < 0 ∨ 9 < (10 : Int)) := by decide

theorem witness_EncNumberMeaning :
    FitsField (-32768) ∧ FitsField 32767 ∧ (0 ≤ (0 : Int) ∧ (0 : Int) ≤ 9999) ∧ (0 ≤ (9999 : Int) ∧ (9999 : Int) ≤ 9999) ∧ ((-1 : Int) < 0 ∨ 9999 < (-1 : Int)) ∧
    ((10000 : Int) < 0 ∨ 9999 < (10000 : Int)) := by decide

theorem witness_EncApplyIndicatorMeaning :
    (0 ≤ (0 : Int) ∧ (0 : Int) ≤ 3 ∧ 0 ≤ (7 : Int) ∧ (7 : Int) ≤ 7) ∧ (0 ≤ (3 : Int) ∧ (3 : Int) ≤ 3 ∧ 0 ≤ (0 : Int)) ∧
    ((4 : Int) < 0 ∨ 3 < (4 : Int)) ∧ ((8 : Int) < 0 ∨ 7 < (8 : Int)) ∧ (-1 : Int) < 0 := by decide

theorem witness_EncoderIsPure :
    isEncoder (.encNumber 905 true) = true ∧ (opened []).cfg = (ready []).cfg ∧ phase (opened []) ≠ phase (ready []) :=
  ⟨by decide, rfl, by decide⟩

theorem witness_DigitsAreTheDecimalForm : 0 ≤ 9999 ∧ 9999 ≤ 9999 := by decide

theorem witness_LeadingZeroCount :
    (0 < 10 ∧ 9 < 10) ∧ (¬ 10 < 10 ∧ 99 < 100) ∧ (¬ 100 < 100 ∧ 999 < 1000) ∧ (¬ 1000 < 1000 ∧ 9999 ≤ 9999) := by decide

theorem witness_EncoderNeverSetsIndicator :
    configOk State.reset.cfg = true ∧
    (nextOf (exec (.encDigit 8 false) State.reset)).bind lastOutcome = some (.ok (.byte 0x7F)) ∧
    (nextOf (exec (.encNumber 9999 true) State.reset)).bind lastOutcome =
      some (.ok (.buffer ⟨0x6F, 0x6F, 0x6F, 0x6F⟩)) := by decide

/-- Both sides of the equivalence (L1-5). -/
theorem witness_IndicatorRoundTrip :
    (bufferByte ⟨0x00, 0x6F, 0x3F, 0x6D⟩ 1).getLsbD 7 = false ∧ (bufferByte ⟨0x80, 0, 0, 0⟩ 0).getLsbD 7 = true := by decide

theorem witness_SesInitMeaning : (ready []).life = .ready ∧ State.reset.life = .uninitialized := by decide

/-- The buffers of L2-S3, L2-S4 and L2-N12. -/
theorem witness_SesSetNumberMeaning :
    FitsField (-32768) ∧ FitsField 32767 ∧ ReadyIdle (ready acks) ∧ IsNumberBuffer (ready acks).cfg 905 true ⟨0x00, 0x6F, 0x3F, 0x6D⟩ ∧
    IsNumberBuffer (ready acks).cfg 905 false ⟨0x3F, 0x6F, 0x3F, 0x6D⟩ ∧
    IsNumberBuffer (ready acks).cfg 0 true ⟨0, 0, 0, 0x3F⟩ ∧ IsNumberBuffer (ready acks).cfg 9999 true ⟨0x6F, 0x6F, 0x6F, 0x6F⟩ ∧
    ((-1 : Int) < 0 ∨ 9999 < (-1 : Int)) ∧ ((10000 : Int) < 0 ∨ 9999 < (10000 : Int)) ∧
    AcksFirst (ready acks) 6 ∧ FirstNack (ready [true]) 0 ∧ FirstNack (ready [false, false, false, false, false, true]) (4 + 1) := by
  unfold IsNumberBuffer
  decide

/-- The buffers of L2-S10 and L2-S11. -/
theorem witness_SesSetNumberIndMeaning :
    FitsField (-32768) ∧ FitsField 32767 ∧ ReadyIdle (ready acks) ∧
    IsNumberBuffer (ready acks).cfg 905 (ready acks).cfg.suppressInd ⟨0x00, 0x6F, 0x3F, 0x6D⟩ ∧
    (∀ j : Fin 4, bufferByte ⟨0x00, 0xEF, 0x3F, 0x6D⟩ j =
      if j = (ready acks).cfg.indDigit then bufferByte ⟨0x00, 0x6F, 0x3F, 0x6D⟩ j ||| 0x80
      else bufferByte ⟨0x00, 0x6F, 0x3F, 0x6D⟩ j) ∧
    (∀ j : Fin 4, bufferByte ⟨0x00, 0x6F, 0x3F, 0x6D⟩ j =
      if j = (ready acks).cfg.indDigit then bufferByte ⟨0x00, 0x6F, 0x3F, 0x6D⟩ j &&& ~~~0x80
      else bufferByte ⟨0x00, 0x6F, 0x3F, 0x6D⟩ j) ∧
    ((-1 : Int) < 0 ∨ 9999 < (-1 : Int)) ∧ AcksFirst (ready acks) 6 := by
  unfold IsNumberBuffer
  decide

/-- The lowest and the highest index. -/
theorem witness_SesSetRawSegmentMeaning :
    FitsField (-32768) ∧ FitsField 32767 ∧ ReadyIdle (ready acks) ∧ (ready acks).buf = .val ⟨0, 0, 0, 0⟩ ∧
    (∀ j : Fin 4, bufferByte ⟨0x7F, 0, 0, 0⟩ j = if (j.val : Int) = 0 then 0x7F else bufferByte ⟨0, 0, 0, 0⟩ j) ∧
    (∀ j : Fin 4, bufferByte ⟨0, 0, 0, 0x7F⟩ j = if (j.val : Int) = 3 then 0x7F else bufferByte ⟨0, 0, 0, 0⟩ j) ∧
    ((-1 : Int) < 0 ∨ 3 < (-1 : Int)) ∧ ((4 : Int) < 0 ∨ 3 < (4 : Int)) ∧ AcksFirst (ready acks) 6 := by decide

theorem witness_SesSetBrightnessMeaning :
    ReadyIdle (ready acks) ∧ configOk (ready acks).cfg = true ∧ FitsField (-32768) ∧ FitsField 32767 ∧
    (-1 < (ready acks).cfg.brightMin ∨ (ready acks).cfg.brightMax < -1) ∧
    (8 < (ready acks).cfg.brightMin ∨ (ready acks).cfg.brightMax < 8) ∧
    ((ready acks).cfg.brightMin ≤ 0 ∧ 7 ≤ (ready acks).cfg.brightMax) ∧
    AcksFirst (ready acks) 1 ∧ FirstNack (ready [true]) 0 := by decide

theorem witness_SessionStateChangesOnlyOnOk :
    (nextOf (exec (.sesSetBrightness 7) (ready acks))).map (fun t => (t.bright ≠ (ready acks).bright : Bool)) = some true ∧
    (nextOf (exec (.sesSetRawSegment 0 1) (ready acks))).map (fun t => (t.buf ≠ (ready acks).buf : Bool)) = some true := by
  decide

/-- Each reason of R173 that an operation has, and no reason. -/
theorem witness_RefusedExactlyForTheReasons :
    refusalReason .busStart State.reset = some .notInitialized ∧ refusalReason .sesInit (ready []) = some .alreadyInitialized ∧
    refusalReason .busStart (opened []) = some .startInOpenTransaction ∧
    refusalReason (.addrCmd 0) (ready []) = some .byteOutsideTransaction ∧
    refusalReason (.sesSetBrightness 0) (opened []) = some .commandInOpenTransaction ∧
    refusalReason (.encDigit 0 true) (opened []) = none ∧ refusalReason .busStop (opened []) = none := by decide

theorem witness_ErrorsOnlyFromTheirOperations :
    (nextOf (exec (.sesSetNumber 0 true) (ready [false, true]))).bind lastOutcome = some (.error (.busError 1 0)) ∧
    (nextOf (exec (.encNumber 10000 true) State.reset)).bind lastOutcome = some (.error .outOfRange) := by decide

theorem witness_ErrorsArePrecise :
    (nextOf (exec (.cmdSetBrightness 8 true) (ready []))).bind lastOutcome = some (.error .invalidArgument) ∧
    (nextOf (exec (.encNumber (-1) true) (ready []))).bind lastOutcome = some (.error .outOfRange) ∧
    (nextOf (exec (.cmdWriteDigits 0xC0 ⟨0, 0, 0, 0⟩) (ready [false, false, false, false, true]))).bind lastOutcome =
      some (.error (.busError 0 4)) := by decide

theorem witness_ResultWordLayout : 1 ≤ 1 ∧ 15 ≤ 15 := by decide

/-- A step from a state with the mark. -/
theorem witness_RefusedIsSticky :
    ∃ t, StepsTo ({ State.reset with refused := true }.withFetchWord 64 0xA) t ∧ t.refused = true :=
  ⟨_, rfl, rfl⟩

theorem witness_ConfigurationIsFixed : ∃ t, StepsTo (State.reset.withFetchWord 64 0xA) t := ⟨_, rfl⟩

theorem witness_LifeOnlyMovesToReady :
    (nextOf (exec .sesInit State.reset)).map State.life = some .ready ∧
    (nextOf (exec .busStop (ready []))).map State.life = some .ready ∧ (ready []).life = .ready := by decide

theorem witness_StepsAppendEventGroups : ∃ t, StepsTo ((ready []).withFetchWord 64 0x1) t := ⟨_, rfl⟩

theorem witness_RequestsTakenInOrder :
    (State.reset.withFetchWord 64 0xA).inbox = .host 0xA :: [] ∧ (∃ t, StepsTo (State.reset.withFetchWord 64 0xA) t) ∧
    decode State.reset.cfg (.host 0xA) = some .sesInit ∧ decode State.reset.cfg (.host 0xF) = none ∧
    ∃ t, StepsTo (State.reset.withFetchWord 64 0xF) t :=
  ⟨by decide, ⟨_, rfl⟩, by decide, by decide, ⟨_, rfl⟩⟩

theorem witness_StepRunsTheDecodedInstruction :
    ((ready []).withFetchWord 8 0xC0).inbox = .wire 0xC0 :: [] ∧
    decode (ready []).cfg (.wire 0xC0) = some (.addrCmd 0) := by decide

theorem witness_PlacedWordRunsNext :
    decodeHost 0x0000000000000001 = .ok .busStart ∧ decodeWire (ready []).cfg 0x40 = some .dataCmdAuto :=
  ⟨rfl, by decide⟩

theorem witness_WaitsForTheHost : State.reset.inbox = [] := by decide

/-- One word for each reason of R67, and an operation. -/
theorem witness_ReservedWordsRefused :
    (State.reset.withFetchWord 64 0xF).inbox = .host 0xF :: [] ∧ (splitWord 0x0).op = 0x0 ∧ (splitWord 0xF).op = 0xF ∧
    (splitWord 0x41).fr ≠ 0 ∧ ((usedFields 0x1).f0 = false ∧ (splitWord 0x11).f0 = true) ∧
    ((usedFields 0x1).f1 = false ∧ (splitWord 0x21).f1 = true) ∧ ((usedFields 0x1).a = false ∧ (splitWord 0x101).a ≠ 0) ∧
    ((usedFields 0x1).v = false ∧ (splitWord 0x10001).v ≠ 0) ∧
    ((usedFields 0x1).s = false ∧ (splitWord 0x100000001).s ≠ ⟨0, 0, 0, 0⟩) ∧
    ((splitWord 0x10027).op = 0x7 ∧ (splitWord 0x10027).f1 = true ∧ (splitWord 0x10027).v ≠ 0) ∧
    ((splitWord 0x8009).op = 0x9 ∧ (splitWord 0x8009).a.getLsbD 7 = true) ∧ (splitWord 0x4009).a.getLsbD 6 = true ∧
    (splitWord 0x809).a.getLsbD 3 = true ∧
    ((splitWord 0x1).fr = 0 ∧ unusedSet (splitWord 0x1) = false) := by decide

theorem witness_InstancesAreIndependent :
    0 ≠ 1 ∧ (stepInstance 0 [State.reset, ready []]).isSome = true := by decide

/-- The states in and out of service, and a step from each. -/
theorem witness_RegisterInvariantKept :
    RegisterInvariant (State.reset.withFetchWord 64 0xA) ∧ RegisterInvariant ((ready []).withFetchWord 64 0x1) ∧
    (∃ t, StepsTo (State.reset.withFetchWord 64 0xA) t) ∧ ∃ t, StepsTo ((ready []).withFetchWord 64 0x1) t :=
  ⟨⟨by decide, .inl ⟨rfl, rfl, rfl, rfl, rfl, rfl, rfl⟩⟩,
    ⟨by decide, .inr ⟨rfl, ⟨_, rfl⟩, rfl, ⟨_, rfl⟩, ⟨_, rfl, by decide⟩, ⟨_, rfl⟩⟩⟩, ⟨_, rfl⟩, ⟨_, rfl⟩⟩

/-- The log of INIT and START: one open transaction. -/
theorem witness_LogInvariantKept :
    LogInvariant ((opened []).withFetchWord 64 0x2) ∧ ∃ t, StepsTo ((opened []).withFetchWord 64 0x2) t :=
  ⟨⟨⟨by decide, .inr ⟨rfl, ⟨_, rfl⟩, rfl, ⟨_, rfl⟩, ⟨_, rfl, by decide⟩, ⟨_, rfl⟩⟩⟩,
    ⟨[.init, .start], ⟨[], some []⟩, rfl, rfl, by decide⟩, ⟨fun h => (nomatch h), fun ⟨_, _, h⟩ => (nomatch h)⟩⟩, ⟨_, rfl⟩⟩

/-- A run of one issued request and one step, with a step's worth of service. -/
theorem witness_ReachableStatesAreSound :
    configOk Config.standard = true ∧
    ∃ t, Reaches { State.powerOn Config.standard with draws := [true] } t ∧ t.life = .ready :=
  ⟨by decide, _, .stepped (.issued (.host 0xA) .here) rfl, rfl⟩

/-- A run of ENC_DIGIT blank before SES_INIT. -/
theorem witness_CleanRunsInitialiseFirst :
    ∃ t, CleanRun { State.powerOn Config.standard with draws := [] } t ∧ t.life = .uninitialized ∧ t.history.length = 1 :=
  ⟨_, ⟨.stepped (.issued (.host 0x27) .here) rfl, rfl⟩, rfl, rfl⟩

theorem witness_TransitionCounts : 0 < [0x40#8].length ∧ 4 < [0xC0#8, 0, 0, 0, 0].length := by decide

/-- In service, the data command for auto-increment acknowledged. -/
def inAuto : State :=
  { ready acks with trace := groupEvents false [.init, .start, .byte 0x40 false, .stop] }

/-- Nothing known of the controller, and the mode known; a base that is `BASE_ADDR` and one that is not. -/
theorem witness_AcknowledgedCommandsDecideTheController :
    (configOk (ready acks).cfg = true ∧ ReadyIdle (ready acks) ∧ AcksFirst (ready acks) 5 ∧ TraceLogged (ready acks) ∧
      txlog (ready acks) = some ⟨[], none⟩ ∧ (controllerView Config.standard ⟨[], none⟩).mode ≠ some .autoIncrement ∧
      (nextOf (exec (.cmdSetDataMode true) (ready acks))).isSome = true ∧
      (nextOf (exec (.cmdSetBrightness 7 true) (ready acks))).isSome = true) ∧
    (configOk inAuto.cfg = true ∧ ReadyIdle inAuto ∧ AcksFirst inAuto 5 ∧ TraceLogged inAuto ∧
      txlog inAuto = some ⟨[[(0x40, true)]], none⟩ ∧
      (controllerView Config.standard ⟨[[(0x40, true)]], none⟩).mode = some .autoIncrement ∧
      (nextOf (exec (.cmdWriteDigits 0xC0 ⟨0, 0, 0, 0⟩) inAuto)).isSome = true ∧ 0xC4 ≠ inAuto.cfg.baseAddr) :=
  ⟨⟨by decide, by decide, by decide, ⟨[.init], ⟨[], none⟩, rfl, rfl, by decide⟩, by decide, by decide, by decide, by decide⟩,
    by decide, by decide, by decide, ⟨[.init, .start, .byte 0x40 false, .stop], ⟨[[(0x40, true)]], none⟩, rfl, rfl, by decide⟩,
    by decide, by decide, by decide, by decide⟩

theorem witness_DecodeOfEncode :
    configOk Config.standard = true ∧ (Instr.encApplyIndicator ⟨0, 0, 0, 0xFF⟩ 3 7 true).wf = true ∧
    (Instr.sesSetNumber (-32768) true).wf = true ∧ (Instr.displayCtrl true 7).wf = true := by decide

theorem witness_EncodeOfDecode :
    decode Config.standard (.host 0x27) = some (.encDigit 0 true) ∧
    decode Config.standard (.wire 0xCF) = some (.addrCmd 15) := by decide

/-- A row met at a word with every free bit set, and the excepted ENC_DIGIT word. -/
theorem witness_OpcodeTableMatches :
    0xFFFFFFFF0000FF06#64 &&& 0x00000000FFFF00FF = 0x0000000000000006 ∧ blankWithValue 0x10027 ∧
    decodeHost 0x0000000000000007 = .ok (.encDigit 0 false) :=
  ⟨by decide, ⟨by decide, by decide⟩, rfl⟩

theorem witness_WireCommandForms : configOk Config.standard = true := by decide

theorem witness_AssembleOfDisassemble :
    (Instr.encDigit 0 true).wf = true ∧ disassemble (.encDigit 0 true) = some ⟨.encDigit, [.word .blank]⟩ ∧
    disassemble (.busWriteByte 0xFF) = some ⟨.busWriteByte, [.num 255]⟩ := by decide

end Sys2Proof.Tests
end

section
/-! SUPPORT. What a step keeps: the one induction over a step, and what each shared operation and each effect of an instruction
does to the configuration, the mark, the record, the registers and the transaction log. -/

namespace Sys2Proof.Machine

/-! ### Steps and runs -/

/-- A property is kept by every step if taking a request, refusing a reserved word and every effect of an instruction keep it. -/
theorem step_preserves {P : State → Prop} (htake : ∀ s rest, P s → P { s with inbox := rest })
    (hrefuse : ∀ w r s, P s → P { answer (.reserved w) (.refusal r) s with refused := true })
    (heffect : ∀ i s t, P s → Effect i s t → P t) {s t : State} (hs : P s) (h : StepsTo s t) : P t := by
  rcases step_cases h with ⟨-, rfl⟩ | ⟨r, rest, i, -, -, he⟩ | ⟨w, rest, r, -, -, rfl⟩
  · exact hs
  · exact heffect i _ t (htake s rest hs) (exec_effect he)
  · exact hrefuse w r _ (htake s rest hs)

/-- A property that issuing and every step keep holds of every state that is reached. -/
theorem Reaches.preserves {P : State → Prop} (hissue : ∀ r t, P t → P (issue r t))
    (hstep : ∀ t u, P t → StepsTo t u → P u) {s t : State} (h : Reaches s t) (hs : P s) : P t := by
  induction h with
  | here => exact hs
  | issued r _ ih => exact hissue r _ ih
  | stepped _ hu ih => exact hstep _ _ ih hu

/-- What stands at the head of the inbox and decodes is the instruction that is fetched. -/
theorem fetch_of_decode {s : State} {r : Request} {rest : List Request} {i : Instr} (hi : s.inbox = r :: rest)
    (hd : decode s.cfg r = some i) : fetch s = .instr i { s with inbox := rest } := by
  unfold fetch
  cases r with
  | host w =>
    cases hw : decodeHost w with
    | ok j =>
      obtain rfl : j = i := by simpa [decode, hw, Except.toOption] using hd
      simp [hi, hw]
    | error e => simp [decode, hw, Except.toOption] at hd
  | wire b =>
    have hb : decodeWire s.cfg b = some i := hd
    simp [hi, hb]

/-! ### The configuration, the mark and the record -/

@[simp] theorem startSeq_cfg (s : State) : (startSeq s).cfg = s.cfg := rfl
@[simp] theorem startSeq_refused (s : State) : (startSeq s).refused = s.refused := rfl
@[simp] theorem startSeq_history (s : State) : (startSeq s).history = s.history := rfl
@[simp] theorem stopSeq_cfg (s : State) : (stopSeq s).cfg = s.cfg := rfl
@[simp] theorem stopSeq_refused (s : State) : (stopSeq s).refused = s.refused := rfl
@[simp] theorem stopSeq_history (s : State) : (stopSeq s).history = s.history := rfl
@[simp] theorem afterByte_refused (b : Byte) (s : State) : (afterByte b s).refused = s.refused := rfl
@[simp] theorem afterByte_history (b : Byte) (s : State) : (afterByte b s).history = s.history := rfl
@[simp] theorem afterTxn_cfg (sent : List Byte) (s : State) : (afterTxn sent s).cfg = s.cfg := rfl
@[simp] theorem afterTxn_refused (sent : List Byte) (s : State) : (afterTxn sent s).refused = s.refused := rfl
@[simp] theorem afterTxn_history (sent : List Byte) (s : State) : (afterTxn sent s).history = s.history := rfl

/-- No effect changes a parameter (R10). -/
theorem Effect.cfg_eq {i : Instr} {s t : State} (h : Effect i s t) : t.cfg = s.cfg := by
  cases h <;> simp

/-- An instruction is recorded once, after what was on record, and it sets the mark exactly if its outcome is a refusal (R15). -/
theorem Effect.recorded {i : Instr} {s t : State} (h : Effect i s t) :
    ∃ o : OpOutcome, t.history = s.history ++ [(.op i, o)] ∧
      (t.refused = true ↔ s.refused = true ∨ ∃ r, o = .refusal r) := by
  cases h <;> exact ⟨_, rfl, by simp⟩

/-- The record and the mark go on agreeing when one outcome is recorded and the mark is set exactly if that is a refusal. -/
theorem RefusalsRecorded.record {s t : State} {j : Issued} {o : OpOutcome} (hs : RefusalsRecorded s)
    (hh : t.history = s.history ++ [(j, o)]) (hr : t.refused = true ↔ s.refused = true ∨ ∃ r, o = .refusal r) :
    RefusalsRecorded t := by
  unfold RefusalsRecorded at hs ⊢
  rw [hr, hs, hh]
  constructor
  · rintro (⟨k, r, hk⟩ | ⟨r, rfl⟩)
    · exact ⟨k, r, List.mem_append_left _ hk⟩
    · exact ⟨j, r, by simp⟩
  · rintro ⟨k, r, hk⟩
    rcases List.mem_append.1 hk with hk | hk
    · exact .inl ⟨k, r, hk⟩
    · obtain ⟨-, rfl⟩ : k = j ∧ OpOutcome.refusal r = o := by simpa using hk
      exact .inr ⟨r, rfl⟩

/-- No step clears the mark (R15). -/
theorem step_preserves_refused {s t : State} (hs : s.refused = true) (h : StepsTo s t) : t.refused = true := by
  refine step_preserves (P := fun u => u.refused = true) (fun _ _ hu => hu) (fun _ _ _ _ => rfl) ?_ hs h
  intro i u v hu he
  obtain ⟨o, -, hr⟩ := he.recorded
  exact hr.2 (.inl hu)

/-- No step changes a parameter (R10). -/
theorem step_preserves_cfg {c : Config} {s t : State} (hs : s.cfg = c) (h : StepsTo s t) : t.cfg = c :=
  step_preserves (P := fun u => u.cfg = c) (fun _ _ hu => hu) (fun _ _ _ hu => hu)
    (fun _ _ _ hu he => he.cfg_eq.trans hu) hs h

/-- Every step keeps the agreement of the mark with the record (R15, R173). -/
theorem step_preserves_refusalsRecorded {s t : State} (hs : RefusalsRecorded s) (h : StepsTo s t) :
    RefusalsRecorded t := by
  refine step_preserves (fun _ _ hu => hu) ?_ ?_ hs h
  · intro w r u hu
    exact hu.record rfl (by simp)
  · intro i u v hu he
    obtain ⟨o, hh, hr⟩ := he.recorded
    exact hu.record hh hr

/-! ### The registers -/

/-- With the registers set or at power-on, a Ready session is in service (R33). -/
theorem RegistersSet.inService {s : State} (h : RegistersSet s) (hr : s.life = .ready) : InService s := by
  rcases h with ⟨hl, -⟩ | h
  · rw [hl] at hr; cases hr
  · exact h

/-- A state in service stays so while the data line is left as output and the session's registers are left (R33). -/
theorem InService.of_pins {s t : State} (h : InService s) (hl : t.life = s.life) (hc : ∃ v, t.clkOut = .val v)
    (he : t.dioOe = .val true) (hd : ∃ v, t.dioOut = .val v) (hbr : t.bright = s.bright) (hbu : t.buf = s.buf) :
    InService t := by
  obtain ⟨hr, -, -, -, hbright, hbuf⟩ := h
  exact ⟨hl.trans hr, hc, he, hd, hbr ▸ hbright, hbu ▸ hbuf⟩

theorem InService.startSeq {s : State} (h : InService s) : InService (startSeq s) :=
  h.of_pins rfl ⟨_, rfl⟩ rfl ⟨_, rfl⟩ rfl rfl

theorem InService.stopSeq {s : State} (h : InService s) : InService (stopSeq s) :=
  h.of_pins rfl ⟨_, rfl⟩ rfl ⟨_, rfl⟩ rfl rfl

theorem InService.afterByte {s : State} (h : InService s) (b : Byte) : InService (afterByte b s) :=
  h.of_pins rfl ⟨_, rfl⟩ rfl ⟨_, rfl⟩ rfl rfl

theorem InService.afterTxn {s : State} (h : InService s) (sent : List Byte) : InService (afterTxn sent s) :=
  h.of_pins rfl ⟨_, rfl⟩ rfl ⟨_, rfl⟩ rfl rfl

/-- A display write stores its buffer (R145). -/
theorem InService.storeBuf {s : State} (h : InService s) (b : Buffer) : InService { s with buf := .val b } := by
  obtain ⟨hr, hc, he, hd, hbright, -⟩ := h
  exact ⟨hr, hc, he, hd, hbright, ⟨b, rfl⟩⟩

/-- A level in range is stored (R24, R157). -/
theorem InService.storeBright {s : State} (h : InService s) {level : Int} (hb : 0 ≤ level ∧ level ≤ 7) :
    InService { s with bright := .val level } := by
  obtain ⟨hr, hc, he, hd, -, hbuf⟩ := h
  exact ⟨hr, hc, he, hd, ⟨level, rfl, hb⟩, hbuf⟩

/-- Every effect leaves the registers set, or at power-on (R24, R33). -/
theorem Effect.registersSet {i : Instr} {s t : State} (h : Effect i s t) (hc : configOk s.cfg = true)
    (hs : RegistersSet s) : RegistersSet t := by
  cases h with
  | refused | argument | value => exact hs
  | started _ hr => exact .inr (hs.inService hr).startSeq
  | stopped _ hr => exact .inr (hs.inService hr).stopSeq
  | wrote b hr => exact .inr ((hs.inService hr).afterByte b)
  | sent bytes _ hr => exact .inr ((hs.inService hr).afterTxn bytes)
  | failed bytes _ _ _ hr => exact .inr ((hs.inService hr).afterTxn bytes)
  | failedSecond bytes more _ _ _ _ hr => exact .inr (((hs.inService hr).afterTxn bytes).afterTxn more)
  | displayed bytes more _ _ b _ hr => exact .inr ((((hs.inService hr).afterTxn bytes).afterTxn more).storeBuf b)
  | brightened bytes _ level _ hok hr =>
    exact .inr (((hs.inService hr).afterTxn bytes).storeBright ((configOk_brightness hc level).1 hok))
  | initialised =>
    have hd : 0 ≤ s.cfg.defaultBrightness ∧ s.cfg.defaultBrightness ≤ 7 := by
      obtain ⟨-, -, hd, -⟩ := configOk_bounds hc
      omega
    exact .inr ⟨rfl, ⟨_, rfl⟩, rfl, ⟨_, rfl⟩, ⟨_, rfl, hd⟩, ⟨_, rfl⟩⟩

/-! ### The transaction log -/

/-- Only a Ready session is in phase Open (R25). -/
theorem ready_of_phase_opened {s : State} (h : phase s = .opened) : s.life = .ready := by
  unfold phase at h
  split at h
  · split at h
    · cases h
    · split at h
      · assumption
      · cases h
  · cases h

/-- The log has an open transaction exactly in phase Open (R25). -/
def LogAgrees (l : TxLog) (s : State) : Prop := l.opened.isSome = true ↔ phase s = .opened

theorem logAgrees_none {l : TxLog} {s : State} (h : l.opened = none) (hp : phase s ≠ .opened) : LogAgrees l s := by
  simp [LogAgrees, h, hp]

theorem logAgrees_some {l : TxLog} {s : State} {x : Transaction} (h : l.opened = some x) (hp : phase s = .opened) :
    LogAgrees l s := by
  simp [LogAgrees, h, hp]

theorem LogAgrees.opened_eq_none {l : TxLog} {s : State} (h : LogAgrees l s) (hp : phase s ≠ .opened) :
    l.opened = none := by
  cases ho : l.opened with
  | none => rfl
  | some x => exact absurd (h.1 (by rw [ho]; rfl)) hp

theorem LogAgrees.opened_eq_some {l : TxLog} {s : State} (h : LogAgrees l s) (hp : phase s = .opened) :
    ∃ x, l.opened = some x :=
  Option.isSome_iff_exists.1 (h.2 hp)

/-- From `s` to `t` the trace grows by event groups that go on from any log that agrees with `s` to one that agrees with `t`. -/
def ExtendsLog (s t : State) : Prop :=
  ∃ gs, t.trace = s.trace ++ groupEvents s.cfg.dioRestore gs ∧
    ∀ l, LogAgrees l s → ∃ l', logGroups s.cfg.ackLevel l gs = some l' ∧ LogAgrees l' t

/-- What leaves the trace and the phase extends every log by nothing. -/
theorem extendsLog_of_eq {s t : State} (ht : t.trace = s.trace) (hp : phase t = phase s) : ExtendsLog s t := by
  refine ⟨[], by simp [ht, groupEvents], fun l hl => ⟨l, rfl, ?_⟩⟩
  rwa [LogAgrees, hp]

theorem ExtendsLog.trans {s t u : State} (h1 : ExtendsLog s t) (hc : t.cfg = s.cfg) (h2 : ExtendsLog t u) :
    ExtendsLog s u := by
  obtain ⟨g1, ht1, hl1⟩ := h1
  obtain ⟨g2, ht2, hl2⟩ := h2
  rw [hc] at ht2 hl2
  refine ⟨g1 ++ g2, by rw [ht2, ht1, groupEvents_append, List.append_assoc], fun l hl => ?_⟩
  obtain ⟨l1, e1, a1⟩ := hl1 l hl
  obtain ⟨l2, e2, a2⟩ := hl2 l1 a1
  exact ⟨l2, by rw [logGroups_append, e1, Option.bind_some, e2], a2⟩

/-- A logged trace stays logged where the log is extended. -/
theorem TraceLogged.extend {s t : State} (hs : TraceLogged s) (hc : t.cfg = s.cfg) (h : ExtendsLog s t) :
    TraceLogged t := by
  obtain ⟨g1, l, ht1, hl1, ha⟩ := hs
  obtain ⟨g2, ht2, hl2⟩ := h
  obtain ⟨l', e, ha'⟩ := hl2 l ha
  refine ⟨g1 ++ g2, l', ?_, ?_, ha'⟩
  · rw [hc, ht2, ht1, groupEvents_append]
  · rw [hc, logGroups_append, hl1, Option.bind_some, e]

/-- BUS_START from phase Idle opens a transaction (R47, R83). -/
theorem extendsLog_startSeq {s : State} (hr : s.life = .ready) (hp : phase s = .idle) : ExtendsLog s (startSeq s) := by
  have hopen : phase (startSeq s) = .opened := phase_of_set (startSeq s) true true false hr rfl rfl rfl
  refine ⟨[.start], by simp [startSeq_eq, groupEvents], fun l hl => ?_⟩
  have hn := hl.opened_eq_none (by simp [hp])
  exact ⟨{ l with opened := some [] }, by simp [logGroups, logGroup, hn], logAgrees_some rfl hopen⟩

/-- BUS_STOP closes the open transaction, if there is one (R47, R88). -/
theorem extendsLog_stopSeq (s : State) : ExtendsLog s (stopSeq s) := by
  have hidle : phase (stopSeq s) = .idle := (phase_eq_idle_iff _).2 ⟨rfl, rfl, rfl⟩
  refine ⟨[.stop], by simp [stopSeq_eq, groupEvents], fun l _ => ?_⟩
  cases ho : l.opened with
  | none => exact ⟨l, by simp [logGroups, logGroup, ho], logAgrees_none ho (by simp [hidle])⟩
  | some x => exact ⟨⟨l.closed ++ [x], none⟩, by simp [logGroups, logGroup, ho], logAgrees_none rfl (by simp [hidle])⟩

/-- A byte write in phase Open adds its byte to the open transaction (R47, R84). -/
theorem extendsLog_afterByte (b : Byte) {s : State} (hp : phase s = .opened) : ExtendsLog s (afterByte b s) := by
  have hr : (afterByte b s).life = .ready := ready_of_phase_opened (s := s) hp
  have hopen : phase (afterByte b s) = .opened := phase_of_set (afterByte b s) false true _ hr rfl rfl rfl
  refine ⟨[.byte b (drawAt s 0)], by simp [afterByte, groupEvents], fun l hl => ?_⟩
  obtain ⟨x, hx⟩ := hl.opened_eq_some hp
  exact ⟨{ l with opened := some (x ++ [(b, drawAt s 0 == s.cfg.ackLevel)]) }, by simp [logGroups, logGroup, hx],
    logAgrees_some rfl hopen⟩

/-- The BYTE groups of a list of bytes leave the open transaction open (R47). -/
theorem logGroups_byteGroups (a : Level) (s : State) (n : Nat) (bytes : List Byte) (closed : List Transaction)
    (x : Transaction) : ∃ y, logGroups a ⟨closed, some x⟩ (byteGroups s n bytes) = some ⟨closed, some y⟩ := by
  induction bytes generalizing n x with
  | nil => exact ⟨x, rfl⟩
  | cons b rest ih => exact ih (n + 1) (x ++ [(b, drawAt s n == a)])

/-- A transaction from phase Idle is one closed transaction in the log (R47, R102). -/
theorem extendsLog_afterTxn (sent : List Byte) {s : State} (hp : phase s = .idle) : ExtendsLog s (afterTxn sent s) := by
  refine ⟨.start :: byteGroups s 0 sent ++ [.stop], rfl, fun l hl => ?_⟩
  have hn := hl.opened_eq_none (by simp [hp])
  obtain ⟨y, hy⟩ := logGroups_byteGroups s.cfg.ackLevel s 0 sent l.closed []
  refine ⟨⟨l.closed ++ [y], none⟩, ?_, logAgrees_none rfl (by simp [phase_afterTxn])⟩
  simp [logGroups_append, logGroups, logGroup, hn, hy]

/-- SES_INIT opens no transaction (R47, R142). -/
theorem extendsLog_init {s t : State} (hu : s.life = .uninitialized)
    (ht : t.trace = s.trace ++ Group.init.events s.cfg.dioRestore) (hp : phase t = .idle) : ExtendsLog s t := by
  refine ⟨[.init], by simp [ht, groupEvents], fun l hl => ⟨l, rfl, logAgrees_none (hl.opened_eq_none ?_) (by simp [hp])⟩⟩
  intro ho
  rw [ready_of_phase_opened ho] at hu
  cases hu

/-- Every effect extends the log (R25, R47). -/
theorem Effect.extendsLog {i : Instr} {s t : State} (h : Effect i s t) : ExtendsLog s t := by
  cases h with
  | refused | argument | value => exact extendsLog_of_eq rfl rfl
  | started _ hr hp => exact extendsLog_startSeq hr hp
  | stopped => exact extendsLog_stopSeq s
  | wrote b _ hp => exact extendsLog_afterByte b hp
  | sent bytes _ _ hp => exact extendsLog_afterTxn bytes hp
  | failed bytes _ _ _ _ hp => exact extendsLog_afterTxn bytes hp
  | failedSecond bytes more _ _ _ _ _ hp =>
    exact (extendsLog_afterTxn bytes hp).trans rfl (extendsLog_afterTxn more (phase_afterTxn bytes s))
  | displayed bytes more _ _ b _ _ hp =>
    exact (extendsLog_afterTxn bytes hp).trans rfl (extendsLog_afterTxn more (phase_afterTxn bytes s))
  | brightened bytes _ _ _ _ _ hp => exact extendsLog_afterTxn bytes hp
  | initialised _ hu =>
    exact extendsLog_init hu (by simp [Group.events]) ((phase_eq_idle_iff _).2 ⟨rfl, rfl, rfl⟩)

/-- Every step keeps the trace logged (R25, R47). -/
theorem step_preserves_traceLogged {s t : State} (hs : TraceLogged s) (h : StepsTo s t) : TraceLogged t :=
  step_preserves (fun _ _ hu => hu) (fun _ _ _ hu => hu) (fun _ _ _ hu he => hu.extend he.cfg_eq he.extendsLog) hs h

end Sys2Proof.Machine
end

section
/-! SUPPORT. The invariants of Claims along a step and a run, and the statements of 00_scope.md. -/

namespace Sys2Proof.Claims

open Sys2Proof.Machine

/-- Every step keeps the register invariant (R24, R33). -/
theorem step_preserves_registerInvariant {s t : State} (hs : RegisterInvariant s) (h : StepsTo s t) :
    RegisterInvariant t := by
  refine step_preserves (fun _ _ hu => hu) (fun _ _ _ hu => hu) ?_ hs h
  rintro i u v ⟨hc, hreg⟩ he
  exact ⟨he.cfg_eq ▸ hc, he.registersSet hc hreg⟩

/-- Every step keeps the log invariant (R25, R47, R15). -/
theorem step_preserves_logInvariant {s t : State} (hs : LogInvariant s) (h : StepsTo s t) : LogInvariant t := by
  obtain ⟨hreg, hlog, hrec⟩ := hs
  exact ⟨step_preserves_registerInvariant hreg h, step_preserves_traceLogged hlog h,
    step_preserves_refusalsRecorded hrec h⟩

/-- The log invariant holds at power-on, whatever the device will answer. -/
theorem logInvariant_powerOn {c : Config} (hc : configOk c = true) (answers : List Level) :
    LogInvariant { State.powerOn c with draws := answers } := by
  have hpower : AtPowerOn { State.powerOn c with draws := answers } := ⟨rfl, rfl, rfl, rfl, rfl, rfl, rfl⟩
  have hlogged : TraceLogged { State.powerOn c with draws := answers } :=
    ⟨[], TxLog.empty, rfl, rfl, logAgrees_none rfl (by simp [phase, State.powerOn])⟩
  have hrec : RefusalsRecorded { State.powerOn c with draws := answers } := by
    simp [RefusalsRecorded, State.powerOn]
  exact ⟨⟨hc, .inl hpower⟩, hlogged, hrec⟩

/-- Settles O33: each effect of an instruction sets the mark or leaves it (`Effect.recorded`). -/
theorem refusedIsSticky : Obligations.RefusedIsSticky := by
  unfold Obligations.RefusedIsSticky
  exact fun _ _ h hs => step_preserves_refused hs h

/-- Settles O34, from the effects of an instruction (`Effect.cfg_eq`). -/
theorem configurationIsFixed : Obligations.ConfigurationIsFixed := by
  unfold Obligations.ConfigurationIsFixed
  exact fun _ _ h => step_preserves_cfg rfl h

/-- Settles O47, by induction over the run: the log invariant holds at power-on and issuing and every step keep it. -/
theorem reachableStatesAreSound : Obligations.ReachableStatesAreSound := by
  unfold Obligations.ReachableStatesAreSound
  intro c answers t hc hrun
  have hinv : LogInvariant t :=
    hrun.preserves (fun _ _ hu => hu) (fun _ _ hu h => step_preserves_logInvariant hu h) (logInvariant_powerOn hc answers)
  have hcfg : t.cfg = c :=
    hrun.preserves (P := fun u => u.cfg = c) (fun _ _ hu => hu) (fun _ _ hu h => step_preserves_cfg hu h) rfl
  have hrec : RefusalsRecorded t := by
    obtain ⟨-, -, hrec⟩ := hinv
    exact hrec
  exact ⟨hinv, hcfg, hrec⟩

/-- Settles O38: the request at the head of the inbox is the one that is fetched. -/
theorem stepRunsTheDecodedInstruction : Obligations.StepRunsTheDecodedInstruction := by
  unfold Obligations.StepRunsTheDecodedInstruction
  intro s r rest i hi hd
  rw [step, fetch_of_decode hi hd]

end Sys2Proof.Claims
end

section
/-! SUPPORT. The phase from the pins, the parse of a trace as a round trip, the transaction log after an acknowledged
transaction, and what is read off it of the controller. -/

namespace Sys2Proof.Machine

/-! ### The registers, the phase and the lifecycle -/

/-- A register that is not UNSET holds a value (R21). -/
theorem exists_val_of_ne_unset {α : Type} {r : Reg α} (h : r ≠ .unset) : ∃ a, r = .val a := by
  cases r with
  | unset => exact absurd rfl h
  | val a => exact ⟨a, rfl⟩

/-- With a pin register UNSET there is no phase (R25). -/
theorem phase_eq_none_of_unset {s : State} (h : s.clkOut = .unset ∨ s.dioOe = .unset ∨ s.dioOut = .unset) :
    phase s = .none := by
  unfold phase
  split
  · next h1 h2 h3 => simp [h1, h2, h3] at h
  · rfl

/-- The default configuration is within the bounds (R9). -/
theorem configOk_standard : configOk Config.standard = true := by decide

/-- No effect but SES_INIT's changes LIFE, and SES_INIT's makes it Ready (R23). -/
theorem Effect.life_cases {i : Instr} {s t : State} (h : Effect i s t) :
    t.life = s.life ∨ (i = .sesInit ∧ t.life = .ready) := by
  cases h with
  | initialised hi => exact .inr ⟨hi, rfl⟩
  | _ => exact .inl rfl

/-- Every step extends the log (R31, R47). -/
theorem step_extendsLog {s t : State} (h : StepsTo s t) : ExtendsLog s t := by
  have hkept : t.cfg = s.cfg ∧ ExtendsLog s t := by
    refine step_preserves (P := fun u => u.cfg = s.cfg ∧ ExtendsLog s u) (fun _ _ hu => hu) (fun _ _ _ hu => hu) ?_
      ⟨rfl, extendsLog_of_eq rfl rfl⟩ h
    rintro i u v ⟨hc, hu⟩ he
    exact ⟨he.cfg_eq.trans hc, hu.trans hc he.extendsLog⟩
  exact hkept.2

/-! ### Reading the groups of a trace back -/

/-- A group has at least one event (R47). -/
theorem Group.events_ne_nil (restore : Level) (g : Group) : g.events restore ≠ [] := by
  cases g <;> simp [Group.events]

/-- There are at least as many events as groups. -/
theorem length_le_length_groupEvents (restore : Level) (gs : List Group) :
    gs.length ≤ (groupEvents restore gs).length := by
  induction gs with
  | nil => simp
  | cons g rest ih =>
    have hg : 0 < (g.events restore).length := List.length_pos_of_ne_nil (g.events_ne_nil restore)
    simp only [groupEvents, List.flatMap_cons, List.length_append, List.length_cons] at ih ⊢
    omega

/-- The first group of a trace is read, then the groups of what is left. -/
theorem readGroups_of_readGroup {restore : Level} {fuel : Nat} {es rest : List Event} {g : Group} (hne : es ≠ [])
    (h : readGroup restore es = some (g, rest)) :
    readGroups restore (fuel + 1) es = (readGroups restore fuel rest).map (g :: ·) := by
  cases es with
  | nil => exact absurd rfl hne
  | cons e es => rw [readGroups, h]

/-- With fuel for each group, the groups are read off their events. -/
theorem readGroups_groupEvents (restore : Level) (gs : List Group) (fuel : Nat) (h : gs.length ≤ fuel) :
    readGroups restore fuel (groupEvents restore gs) = some gs := by
  induction gs generalizing fuel with
  | nil => cases fuel <;> rfl
  | cons g rest ih =>
    obtain ⟨n, rfl⟩ : ∃ n, fuel = n + 1 := Nat.exists_eq_add_one.2 (Nat.lt_of_lt_of_le (Nat.succ_pos _) h)
    have hread := readGroup_events restore g (groupEvents restore rest)
    have hne : g.events restore ++ groupEvents restore rest ≠ [] :=
      List.append_ne_nil_of_left_ne_nil (g.events_ne_nil restore) _
    rw [show groupEvents restore (g :: rest) = g.events restore ++ groupEvents restore rest from rfl,
      readGroups_of_readGroup hne hread, ih n (Nat.le_of_succ_le_succ h), Option.map_some]

/-- The parse of a concatenation of groups is those groups (R47). -/
theorem parseTrace_groupEvents (restore : Level) (gs : List Group) :
    parseTrace restore (groupEvents restore gs) = some gs :=
  readGroups_groupEvents restore gs _ (length_le_length_groupEvents restore gs)

/-! ### The transaction log of a state -/

@[simp] theorem txlog_answer (i : Issued) (o : OpOutcome) (s : State) : txlog (answer i o s) = txlog s := rfl

/-- The log of a trace made of groups is the log of the groups (R47). -/
theorem txlog_of_groups {s : State} {gs : List Group} (h : s.trace = groupEvents s.cfg.dioRestore gs) :
    txlog s = logGroups s.cfg.ackLevel TxLog.empty gs := by
  rw [txlog, h, parseTrace_groupEvents, Option.bind_some]

/-- The log that is read off a logged trace agrees with the phase (R25). -/
theorem TraceLogged.logAgrees {s : State} {l : TxLog} (hs : TraceLogged s) (hl : txlog s = some l) : LogAgrees l s := by
  obtain ⟨gs, l', ht, hg, ha⟩ := hs
  obtain rfl : l' = l := by simpa [txlog_of_groups ht, hg] using hl
  exact ha

/-- Groups that a logged trace grows by are logged after it (R47). -/
theorem TraceLogged.txlog_append {s t : State} {l l2 : TxLog} {gs : List Group} (hs : TraceLogged s)
    (hl : txlog s = some l) (hc : t.cfg = s.cfg) (ht : t.trace = s.trace ++ groupEvents s.cfg.dioRestore gs)
    (hgs : logGroups s.cfg.ackLevel l gs = some l2) : txlog t = some l2 := by
  obtain ⟨g1, -, h1, -, -⟩ := hs
  have htrace : t.trace = groupEvents t.cfg.dioRestore (g1 ++ gs) := by rw [hc, ht, h1, groupEvents_append]
  rw [txlog_of_groups h1] at hl
  rw [txlog_of_groups htrace, hc, logGroups_append, hl, Option.bind_some, hgs]

/-- The bytes of a transaction, each acknowledged (R47). -/
def ackedEntries (bytes : List Byte) : Transaction := bytes.map fun b => (b, true)

/-- Acknowledged bytes are logged as such in the open transaction (R47). -/
theorem logGroups_byteGroups_acked (a : Level) (s : State) (n : Nat) (bytes : List Byte) (closed : List Transaction)
    (x : Transaction) (h : ∀ j < bytes.length, drawAt s (n + j) = a) :
    logGroups a ⟨closed, some x⟩ (byteGroups s n bytes) = some ⟨closed, some (x ++ ackedEntries bytes)⟩ := by
  induction bytes generalizing n x with
  | nil => simp [byteGroups, logGroups, ackedEntries]
  | cons b rest ih =>
    have h0 : drawAt s n = a := h 0 (Nat.succ_pos _)
    have hr := ih (n + 1) (x ++ [(b, true)]) fun j hj => by
      rw [Nat.add_assoc, Nat.add_comm 1 j]; exact h (j + 1) (Nat.succ_lt_succ hj)
    simp only [byteGroups, logGroups, logGroup, h0, beq_self_eq_true, Option.bind_some]
    simpa [ackedEntries] using hr

/-- A transaction from phase Idle whose every byte is acknowledged is one closed transaction in the log (R47, R102). -/
theorem txlog_afterTxn_acked {s : State} {l : TxLog} {bytes : List Byte} (hp : phase s = .idle) (hs : TraceLogged s)
    (hl : txlog s = some l) (hack : ∀ j < bytes.length, drawAt s j = s.cfg.ackLevel) :
    txlog (afterTxn bytes s) = some ⟨l.closed ++ [ackedEntries bytes], none⟩ := by
  have hn : l.opened = none := (hs.logAgrees hl).opened_eq_none (by simp [hp])
  have hbytes := logGroups_byteGroups_acked s.cfg.ackLevel s 0 bytes l.closed [] (by simpa using hack)
  refine hs.txlog_append hl rfl rfl ?_
  simp [logGroups_append, logGroups, logGroup, hn, hbytes]

/-! ### The commands when the device acknowledges -/

/-- A transaction whose every byte is acknowledged goes on (R102). -/
theorem transact_acked (i : Instr) (n : Nat) {bytes : List Byte} {s : State}
    (andThen : State → Host.Outcome State Fault Refusal) (hne : bytes ≠ [])
    (hack : ∀ j < bytes.length, drawAt s j = s.cfg.ackLevel) :
    transact i n bytes s andThen = andThen (afterTxn bytes s) := by
  rw [transact, txn_acked bytes s hne hack]

/-- CMD_SET_DATA_MODE past its checks (R100). -/
theorem exec_cmdSetDataMode_idle (auto : Bool) {s : State} (hr : s.life = .ready) (hp : phase s = .idle) :
    exec (.cmdSetDataMode auto) s =
      transact (.cmdSetDataMode auto) 0 [if auto then s.cfg.dataCmdAuto else s.cfg.dataCmdFixed] s
        (finish (.cmdSetDataMode auto) .unit) :=
  commandGate_open _ s _ hr hp

/-- CMD_SET_BRIGHTNESS past its checks (R103). -/
theorem exec_cmdSetBrightness_idle {level : Int} (on : Bool) {s : State} (hr : s.life = .ready) (hp : phase s = .idle)
    (hok : brightnessOk s.cfg level = true) :
    exec (.cmdSetBrightness level on) s =
      transact (.cmdSetBrightness level on) 0 [displayByte on (BitVec.ofInt 8 level)] s
        (finish (.cmdSetBrightness level on) .unit) := by
  rw [exec, execCmdSetBrightness, commandGate_open _ s _ hr hp, if_neg (by simp [hok])]

/-- CMD_WRITE_DIGITS past its checks (R106). -/
theorem exec_cmdWriteDigits_idle (base : Byte) (b : Buffer) {s : State} (hr : s.life = .ready) (hp : phase s = .idle) :
    exec (.cmdWriteDigits base b) s =
      transact (.cmdWriteDigits base b) 0 (base :: bufferBytes b) s (finish (.cmdWriteDigits base b) .unit) :=
  commandGate_open _ s _ hr hp

/-! ### Wire commands -/

theorem decodeWire_dataCmdAuto (c : Config) : decodeWire c c.dataCmdAuto = some .dataCmdAuto := by simp [decodeWire]

/-- The fixed data command is read as itself where it is not the auto-increment one (R71). -/
theorem decodeWire_dataCmdFixed {c : Config} (h : configOk c = true) :
    decodeWire c c.dataCmdFixed = some .dataCmdFixed := by
  obtain ⟨-, -, -, -, -, -, hne, -⟩ := configOk_bounds h
  rw [decodeWire, if_neg hne.symm, if_pos rfl]

/-- A byte outside the data class is no data command (R70, R71). -/
theorem ne_dataCmd_of_byteClass {c : Config} (h : configOk c = true) {b : Byte} (hb : byteClass b ≠ 1) :
    b ≠ c.dataCmdAuto ∧ b ≠ c.dataCmdFixed := by
  obtain ⟨-, -, -, -, hauto, hfixed, -, -⟩ := configOk_bounds h
  exact ⟨fun he => hb (he ▸ hauto), fun he => hb (he ▸ hfixed)⟩

/-- The fields of a display-control byte (R72). -/
theorem displayByte_fields (on : Bool) (level : BitVec 3) :
    byteClass (displayByte on (level.setWidth 8)) = 2 ∧ (displayByte on (level.setWidth 8)).extractLsb' 4 4 = 8 ∧
      (displayByte on (level.setWidth 8)).getLsbD 3 = on ∧
      (displayByte on (level.setWidth 8)).extractLsb' 0 3 = level := by
  revert on level; decide

/-- A display-control byte is read as the command it was made of (R72). -/
theorem decodeWire_displayByte {c : Config} (h : configOk c = true) (on : Bool) (level : BitVec 3) :
    decodeWire c (displayByte on (level.setWidth 8)) = some (.displayCtrl on level) := by
  obtain ⟨hclass, hhigh, hon, hlevel⟩ := displayByte_fields on level
  obtain ⟨hauto, hfixed⟩ := ne_dataCmd_of_byteClass h (b := displayByte on (level.setWidth 8)) (by simp [hclass])
  rw [decodeWire, if_neg hauto, if_neg hfixed, if_pos hhigh, hon, hlevel]

/-- A level in 0..7 is three bits of its byte (R72, R104). -/
theorem ofInt_eq_setWidth_of_level {level : Int} (h0 : 0 ≤ level) (h7 : level ≤ 7) :
    BitVec.ofInt 8 level = (BitVec.ofInt 3 level).setWidth 8 := by
  interval_cases level <;> rfl

/-! ### The controller -/

/-- The view after one transaction more. -/
theorem controllerView_concat (c : Config) (l : TxLog) (x : Transaction) (o : Option Transaction) :
    controllerView c ⟨l.closed ++ [x], o⟩ = viewAfter c (controllerView c l) x := by
  simp [controllerView]

/-- An acknowledged data command decides the mode (R32, R101). -/
theorem viewAfter_dataCmd {c : Config} (h : configOk c = true) (v : ControllerView) (auto : Bool) :
    viewAfter c v (ackedEntries [if auto then c.dataCmdAuto else c.dataCmdFixed]) =
      { v with mode := some (if auto then .autoIncrement else .fixed) } := by
  cases auto with
  | true => simp [viewAfter, ackedEntries, decodeWire_dataCmdAuto]
  | false => simp [viewAfter, ackedEntries, decodeWire_dataCmdFixed h]

/-- An acknowledged display-control command decides the display (R105). -/
theorem viewAfter_displayByte {c : Config} (h : configOk c = true) (v : ControllerView) (on : Bool) (level : BitVec 3) :
    viewAfter c v (ackedEntries [displayByte on (level.setWidth 8)]) = { v with display := some (on, level) } := by
  simp [viewAfter, ackedEntries, decodeWire_displayByte h]

/-- A digit write acknowledged in full keeps the view only at `BASE_ADDR` in the auto-increment mode (R41, R101, R105). -/
theorem viewAfter_digits (c : Config) (v : ControllerView) (base : Byte) (b : Buffer) :
    viewAfter c v (ackedEntries (base :: bufferBytes b)) =
      if base = c.baseAddr ∧ v.mode = some .autoIncrement then v else ControllerView.unknown := rfl

/-- A command of one transaction, acknowledged in full, moves the view by that transaction (R32). -/
theorem controllerView_of_acked_command {i : Instr} {s t : State} {l : TxLog} {bytes : List Byte} (hp : phase s = .idle)
    (hs : TraceLogged s) (hl : txlog s = some l) (hne : bytes ≠ [])
    (hack : ∀ j < bytes.length, drawAt s j = s.cfg.ackLevel)
    (h : transact i 0 bytes s (finish i .unit) = .next t) :
    ∃ l2 : TxLog, txlog t = some l2 ∧
      controllerView s.cfg l2 = viewAfter s.cfg (controllerView s.cfg l) (ackedEntries bytes) := by
  rw [transact_acked i 0 _ hne hack] at h
  cases h
  exact ⟨_, txlog_afterTxn_acked hp hs hl hack, controllerView_concat s.cfg l _ none⟩

end Sys2Proof.Machine
end

section
/-! SUPPORT. The statements of 10_state.md. -/

namespace Sys2Proof.Claims

open Sys2Proof.Machine

/-- Settles O44: an effect on a state that is in service leaves it in service, and SES_INIT alone leads there
(`Effect.registersSet`). -/
theorem registerInvariantKept : Obligations.RegisterInvariantKept := by
  unfold Obligations.RegisterInvariantKept
  exact fun _ _ hs h => step_preserves_registerInvariant hs h

/-- Settles O46, from the three parts of the invariant: every effect keeps the registers set, extends the log
(`Effect.extendsLog`) and is recorded once (`Effect.recorded`). -/
theorem logInvariantKept : Obligations.LogInvariantKept := by
  unfold Obligations.LogInvariantKept
  exact fun _ _ hs h => step_preserves_logInvariant hs h

/-- Settles O35, from the effects of an instruction (`Effect.life_cases`). -/
theorem lifeOnlyMovesToReady : Obligations.LifeOnlyMovesToReady := by
  unfold Obligations.LifeOnlyMovesToReady
  intro i s t h
  rcases (exec_effect h).life_cases with hlife | ⟨hi, hready⟩
  · exact ⟨fun hr => hlife.trans hr, fun hne => absurd hlife hne⟩
  · exact ⟨fun _ => hready, fun _ => ⟨hi, hready⟩⟩

/-- Settles O36: what extends the log appends the events of whole groups. -/
theorem stepsAppendEventGroups : Obligations.StepsAppendEventGroups := by
  unfold Obligations.StepsAppendEventGroups
  intro s t h
  obtain ⟨gs, htrace, -⟩ := step_extendsLog h
  exact ⟨gs, htrace⟩

/-- Settles O51: each of the three commands is one transaction more in the log (`controllerView_of_acked_command`), and
the view after it is a `viewAfter` of that transaction. -/
theorem acknowledgedCommandsDecideTheController : Obligations.AcknowledgedCommandsDecideTheController := by
  unfold Obligations.AcknowledgedCommandsDecideTheController
  rintro s t l hc ⟨hr, hp⟩ hack hs hl
  have hcommand : ∀ {i : Instr} {bytes : List Byte}, bytes ≠ [] → bytes.length ≤ 5 →
      transact i 0 bytes s (finish i .unit) = .next t → ∃ l2 : TxLog, txlog t = some l2 ∧
        controllerView s.cfg l2 = viewAfter s.cfg (controllerView s.cfg l) (ackedEntries bytes) :=
    fun hne hlen h =>
      controllerView_of_acked_command hp hs hl hne (fun j hj => hack j (Nat.lt_of_lt_of_le hj hlen)) h
  have hdigits : ∀ {base : Byte} {b : Buffer}, exec (.cmdWriteDigits base b) s = .next t →
      ∃ l2 : TxLog, txlog t = some l2 ∧ controllerView s.cfg l2 =
        if base = s.cfg.baseAddr ∧ (controllerView s.cfg l).mode = some .autoIncrement then controllerView s.cfg l
        else ControllerView.unknown := by
    intro base b h
    rw [exec_cmdWriteDigits_idle base b hr hp] at h
    exact hcommand (List.cons_ne_nil _ _) (by simp [bufferBytes]) h
  refine ⟨fun auto h => ?_, fun level on h0 h7 h => ?_, fun b hmode h => ?_, fun base b hbad h => ?_⟩
  · rw [exec_cmdSetDataMode_idle auto hr hp] at h
    rw [← viewAfter_dataCmd hc]
    exact hcommand (List.cons_ne_nil _ _) (by simp) h
  · rw [exec_cmdSetBrightness_idle on hr hp ((configOk_brightness hc level).2 ⟨h0, h7⟩),
      ofInt_eq_setWidth_of_level h0 h7] at h
    rw [← viewAfter_displayByte hc]
    exact hcommand (List.cons_ne_nil _ _) (by simp) h
  · have hkeep := hdigits h
    rwa [if_pos ⟨rfl, hmode⟩] at hkeep
  · have hlose := hdigits h
    rwa [if_neg (not_and_or.2 hbad)] at hlose

/-- Settles O1: the fields of the power-on state and of the default configuration, and the phase of UNSET pins. -/
theorem resetIsPowerOn : Obligations.ResetIsPowerOn := by
  unfold Obligations.ResetIsPowerOn
  have hphase : phase State.reset = .none := phase_eq_none_of_unset (.inl rfl)
  exact ⟨rfl, rfl, rfl, rfl, rfl, rfl, rfl, rfl, rfl, rfl, rfl, rfl, rfl, rfl, rfl, rfl, rfl, rfl, rfl, rfl, rfl,
    hphase⟩

/-- Settles O2, from the phase of each case of R25. -/
theorem phaseDerivedFromPins : Obligations.PhaseDerivedFromPins := by
  unfold Obligations.PhaseDerivedFromPins
  refine fun s => ⟨phase_eq_none_of_unset, phase_eq_idle_iff s, fun hr hclk hoe hout hidle => ?_⟩
  obtain ⟨c, hc⟩ := exists_val_of_ne_unset hclk
  obtain ⟨oe, ho⟩ := exists_val_of_ne_unset hoe
  obtain ⟨d, hd⟩ := exists_val_of_ne_unset hout
  have hp := phase_of_set s c oe d hr hc ho hd
  split at hp
  · exact absurd hp hidle
  · exact hp

/-- Settles O3, for each direction of the data line. -/
theorem pinRegistersDecideLines : Obligations.PinRegistersDecideLines := by
  unfold Obligations.PinRegistersDecideLines
  exact fun s => ⟨rfl, fun hout => by simp [dioLine, hout], fun hin => by simp [dioLine, hin]⟩

/-- Settles O45: reset is power-on with the default configuration. -/
theorem logInvariantAtReset : Obligations.LogInvariantAtReset := by
  unfold Obligations.LogInvariantAtReset
  exact logInvariant_powerOn configOk_standard []

/-- Settles O43, as the first part of the log invariant at reset. -/
theorem registerInvariantAtReset : Obligations.RegisterInvariantAtReset := by
  unfold Obligations.RegisterInvariantAtReset
  obtain ⟨hreg, -⟩ := logInvariantAtReset
  exact hreg

end Sys2Proof.Claims
end

section
/-! SUPPORT. The inbox along a step, and what a step of one of several instances does to the list of them. -/

namespace Sys2Proof.Machine

/-! ### The requests that wait -/

@[simp] theorem startSeq_inbox (s : State) : (startSeq s).inbox = s.inbox := rfl
@[simp] theorem stopSeq_inbox (s : State) : (stopSeq s).inbox = s.inbox := rfl
@[simp] theorem afterByte_inbox (b : Byte) (s : State) : (afterByte b s).inbox = s.inbox := rfl
@[simp] theorem afterTxn_inbox (sent : List Byte) (s : State) : (afterTxn sent s).inbox = s.inbox := rfl

/-- No effect of an instruction takes or adds a request (R7, R50). -/
theorem Effect.inbox_eq {i : Instr} {s t : State} (h : Effect i s t) : t.inbox = s.inbox := by
  cases h <;> simp

/-- A step with a request pending takes that one, and records the operation that it decodes to, or the reserved word that
it is, with one outcome (R19, R50). -/
theorem step_takes_first {s t : State} {r : Request} {rest : List Request} (hi : s.inbox = r :: rest)
    (h : StepsTo s t) :
    t.inbox = rest ∧ ∃ (j : Issued) (o : OpOutcome), t.history = s.history ++ [(j, o)] ∧
      ((∃ i, decode s.cfg r = some i ∧ j = .op i) ∨ (∃ w, r = .host w ∧ decode s.cfg r = none ∧ j = .reserved w)) := by
  rcases step_cases h with ⟨hnil, -⟩ | ⟨r', rest', i, hi', hd, he⟩ | ⟨w, rest', e, hi', hd, rfl⟩
  · rw [hi] at hnil; cases hnil
  · obtain ⟨rfl, rfl⟩ := List.cons.inj (hi'.symm.trans hi)
    have heffect := exec_effect he
    obtain ⟨o, hh, -⟩ := heffect.recorded
    exact ⟨heffect.inbox_eq, .op i, o, hh, .inl ⟨i, hd, rfl⟩⟩
  · obtain ⟨rfl, rfl⟩ := List.cons.inj (hi'.symm.trans hi)
    exact ⟨rfl, .reserved w, .refusal e, rfl, .inr ⟨w, rfl, by simp [decode, hd, Except.toOption], rfl⟩⟩

/-! ### Several instances -/

/-- A step of an instance replaces its state by what its own step answers, and does nothing else (R55, R182). -/
theorem stepInstance_eq_some_iff {n : Nat} {blocks after : List State} :
    stepInstance n blocks = some after ↔
      ∃ s t, blocks[n]? = some s ∧ StepsTo s t ∧ after = blocks.set n t := by
  unfold stepInstance StepsTo
  cases hs : blocks[n]? with
  | none => simp
  | some s => cases ht : step s <;> simp [ht, eq_comm]

/-- Steps of two instances, one after the other, are a step of each from the state that it had at first (R55, R182). -/
theorem stepInstance_bind_eq_some_iff {n m : Nat} {blocks after : List State} (hne : n ≠ m) :
    (stepInstance n blocks).bind (stepInstance m) = some after ↔
      ∃ s t u v, (blocks[n]? = some s ∧ StepsTo s t) ∧ (blocks[m]? = some u ∧ StepsTo u v) ∧
        after = (blocks.set n t).set m v := by
  simp only [Option.bind_eq_some_iff, stepInstance_eq_some_iff]
  constructor
  · rintro ⟨_, ⟨s, t, hs, hst, rfl⟩, u, v, hu, huv, ha⟩
    rw [List.getElem?_set_ne hne] at hu
    exact ⟨s, t, u, v, ⟨hs, hst⟩, ⟨hu, huv⟩, ha⟩
  · rintro ⟨s, t, u, v, ⟨hs, hst⟩, ⟨hu, huv⟩, ha⟩
    exact ⟨_, ⟨s, t, hs, hst, rfl⟩, u, v, by rwa [List.getElem?_set_ne hne], huv, ha⟩

/-- Two steps of different instances may be taken in either order (R182). -/
theorem stepInstance_comm {n m : Nat} {blocks after : List State} (hne : n ≠ m)
    (h : (stepInstance n blocks).bind (stepInstance m) = some after) :
    (stepInstance m blocks).bind (stepInstance n) = some after := by
  obtain ⟨s, t, u, v, hn, hm, ha⟩ := (stepInstance_bind_eq_some_iff hne).1 h
  exact (stepInstance_bind_eq_some_iff hne.symm).2 ⟨u, v, s, t, hm, hn, ha.trans (List.set_comm t v hne)⟩

end Sys2Proof.Machine
end

section
/-! SUPPORT. The statements of 20_memory.md. -/

namespace Sys2Proof.Claims

open Sys2Proof.Machine

/-- Settles O49, by induction over the groups (`readGroups_groupEvents`): no other group begins as the first one does. -/
theorem traceParsesInOneWay : Obligations.TraceParsesInOneWay := by
  unfold Obligations.TraceParsesInOneWay
  exact parseTrace_groupEvents

/-- Settles O37: of what `step_takes_first` lets stand in the record, the decoder leaves one. -/
theorem requestsTakenInOrder : Obligations.RequestsTakenInOrder := by
  unfold Obligations.RequestsTakenInOrder
  refine ⟨fun _ _ => rfl, fun s t r rest hi h => ?_⟩
  obtain ⟨hrest, j, o, hh, ⟨i, hd, rfl⟩ | ⟨w, rfl, hd, rfl⟩⟩ := step_takes_first hi h
  · refine ⟨hrest, o, fun i' hi' => ?_, fun w _ hn => ?_⟩
    · obtain rfl : i = i' := Option.some.inj (hd.symm.trans hi')
      exact hh
    · rw [hd] at hn; cases hn
  · refine ⟨hrest, o, fun i hi' => ?_, fun w' hw _ => ?_⟩
    · rw [hd] at hi'; cases hi'
    · obtain rfl : w = w' := Request.host.inj hw
      exact hh

/-- Settles O42: a step of an instance replaces its own entry of the list (`stepInstance_eq_some_iff`), and replacements of
different entries commute. -/
theorem instancesAreIndependent : Obligations.InstancesAreIndependent := by
  unfold Obligations.InstancesAreIndependent
  refine fun n m blocks hne => ⟨fun after h => ?_, ?_⟩
  · obtain ⟨s, t, -, -, rfl⟩ := stepInstance_eq_some_iff.1 h
    exact List.getElem?_set_ne hne
  · exact Option.ext fun after => ⟨stepInstance_comm hne, stepInstance_comm hne.symm⟩

end Sys2Proof.Claims
end

section
/-! SUPPORT. The decoder of host words, said once on the fields: which are an operation's, and what that operation is; that
the decoder and the encoder undo each other; and the masks of the opcode table as fields. -/

namespace Sys2Proof

/-! ### The checks of the decoder -/

/-- The fields pass the checks of R68 that follow the opcode's: none of the reasons of R67 for ReservedField holds. -/
structure Accepted (f : Fields) : Prop where
  fr : f.fr = 0
  unused : unusedSet f = false
  blank : ¬(f.op = 0x7 ∧ f.f1 = true ∧ f.v ≠ 0)
  position : ¬(f.op = 0x9 ∧ positionReserved f.a = true)

/-- Exactly the reserved opcodes stand for no operation (R62, R67). -/
theorem operation_eq_none_iff (f : Fields) : operation f = none ↔ f.op = 0x0 ∨ f.op = 0xF := by
  obtain ⟨⟨⟨op, hop⟩⟩, f0, f1, fr, a, v, s⟩ := f
  interval_cases op <;> simp [operation]

/-- An opcode that is not reserved stands for an operation (R62). -/
theorem exists_operation {f : Fields} (h : ¬(f.op = 0x0 ∨ f.op = 0xF)) : ∃ i, operation f = some i :=
  Option.ne_none_iff_exists'.1 fun hnone => h ((operation_eq_none_iff f).1 hnone)

/-- An operation that passes the checks is what the decoder answers (R68). -/
theorem decodeFields_of_accepted {f : Fields} {i : Instr} (hop : operation f = some i) (h : Accepted f) :
    decodeFields f = .ok i := by
  obtain ⟨hfr, hunused, hblank, hposition⟩ := h
  simp only [decodeFields, hop]
  rw [if_neg (not_not.2 hfr), if_neg (Bool.eq_false_iff.1 hunused), if_neg hblank, if_neg hposition]

/-- An operation that fails one of the checks is refused for it (R67). -/
theorem decodeFields_of_not_accepted {f : Fields} {i : Instr} (hop : operation f = some i) (h : ¬Accepted f) :
    decodeFields f = .error .reservedField := by
  simp only [decodeFields, hop]
  split_ifs with hfr hunused hblank hposition
  · rfl
  · rfl
  · rfl
  · rfl
  · exact absurd ⟨not_not.1 hfr, Bool.eq_false_iff.2 hunused, hblank, hposition⟩ h

/-- What the decoder answers is its opcode's operation, and its fields pass the checks (R68). -/
theorem decodeFields_eq_ok_iff {f : Fields} {i : Instr} :
    decodeFields f = .ok i ↔ operation f = some i ∧ Accepted f := by
  refine ⟨fun h => ?_, fun ⟨hop, ha⟩ => decodeFields_of_accepted hop ha⟩
  cases hop : operation f with
  | none => simp [decodeFields, hop] at h
  | some j =>
    by_cases ha : Accepted f
    · rw [decodeFields_of_accepted hop ha] at h
      cases h
      exact ⟨rfl, ha⟩
    · rw [decodeFields_of_not_accepted hop ha] at h
      cases h

/-- No bit outside the fields that the opcode uses is set (R67), field by field. -/
theorem unusedSet_eq_false_iff (f : Fields) :
    unusedSet f = false ↔ ((usedFields f.op).f0 = true ∨ f.f0 = false) ∧ ((usedFields f.op).f1 = true ∨ f.f1 = false) ∧
      ((usedFields f.op).a = true ∨ f.a = 0) ∧ ((usedFields f.op).v = true ∨ f.v = 0) ∧
      ((usedFields f.op).s = true ∨ f.s = zeroBuffer) := by
  simp [unusedSet, and_assoc, or_iff_not_imp_left]

/-- The reserved bits of an indicator position, bit by bit (R65). -/
theorem positionReserved_eq_true_iff (a : Byte) :
    positionReserved a = true ↔ a.getLsbD 7 = true ∨ a.getLsbD 6 = true ∨ a.getLsbD 3 = true := by
  revert a; decide

/-! ### Decoding what is encoded -/

/-- An indicator position without reserved bits is the packed form of its digit and bit (R65). -/
theorem packPosition_of_not_reserved {a : Byte} (h : positionReserved a = false) :
    packPosition (positionDigit a) (positionBit a) = a := by
  revert a; decide

/-- The digit and bit of a position are in range (R65). -/
theorem position_range (a : Byte) :
    (0 ≤ positionDigit a ∧ positionDigit a ≤ 3) ∧ 0 ≤ positionBit a ∧ positionBit a ≤ 7 := by
  revert a; decide

/-- What a host word decodes to as a request (R68). -/
theorem decode_host_eq_some_iff {c : Config} {w : Word} {i : Instr} :
    decode c (.host w) = some i ↔ decodeHost w = .ok i := by
  cases h : decodeHost w <;> simp [decode, h, Except.toOption]

/-- Only ENC_DIGIT and ENC_APPLY_INDICATOR have a check beside those of `FR` and of the unused fields (R67). -/
theorem accepted_of_unused {f : Fields} (hfr : f.fr = 0) (hu : unusedSet f = false) (h7 : f.op ≠ 0x7) (h9 : f.op ≠ 0x9) :
    Accepted f :=
  ⟨hfr, hu, fun ⟨hop, _⟩ => h7 hop, fun ⟨hop, _⟩ => h9 hop⟩

/-- What an opcode and its fields stand for, when the fields pass the checks, is well formed and is encoded in them: the
unused fields are 0, and so are the bits of `A` outside an indicator position (R62, R67). -/
theorem encode_of_accepted (c : Config) {f : Fields} {i : Instr} (hop : operation f = some i) (ha : Accepted f) :
    i.wf = true ∧ encode c i = .host (packWord f) := by
  obtain ⟨⟨⟨op, hlt⟩⟩, f0, f1, fr, a, v, s⟩ := f
  obtain ⟨rfl, hunused, hblank, hposition⟩ := ha
  have hdigit : op = 7 → f1 = false ∨ v.toInt = 0 := by
    rintro rfl
    cases f1 with
    | false => exact .inl rfl
    | true =>
      obtain rfl : v = 0 := by simpa using hblank
      exact .inr rfl
  have hpack : op = 9 → packPosition (positionDigit a) (positionBit a) = a := by
    rintro rfl
    exact packPosition_of_not_reserved (by simpa using hposition)
  interval_cases op <;> simp [operation] at hop <;> subst i <;>
    simp [unusedSet_eq_false_iff, usedFields] at hunused
  all_goals
    simp [Instr.wf, encode, hostFields, fitsV_toInt, fieldV_of_toInt, position_range, hdigit, hpack, hunused]

/-- A host word that the encoder gives for a well-formed operation decodes to that operation (R62, R64, R65). -/
theorem decodeHost_of_encode (c : Config) {i : Instr} {w : Word} (hwf : i.wf = true) (h : encode c i = .host w) :
    decodeHost w = .ok i := by
  cases i <;> simp only [encode, reduceCtorEq, Request.host.injEq] at h <;> subst w
  all_goals
    rw [decodeHost_packWord]
    simp [Instr.wf] at hwf
  case encDigit value blank =>
    obtain ⟨hfits, hblank⟩ := hwf
    refine decodeFields_of_accepted (by simp [operation, hostFields, fieldV_toInt hfits])
      ⟨rfl, rfl, fun ⟨_, hb, hv⟩ => ?_, by simp [hostFields]⟩
    obtain rfl : value = 0 := hblank.resolve_left (ne_false_of_eq_true hb)
    exact hv rfl
  case encApplyIndicator buffer d p enabled =>
    obtain ⟨⟨hd0, hd3⟩, hp0, hp7⟩ := hwf
    obtain ⟨hdigit, hbit, hreserved⟩ := positionDigit_packPosition hd0 hd3 hp0 hp7
    exact decodeFields_of_accepted (by simp [operation, hostFields, hdigit, hbit])
      ⟨rfl, rfl, by simp [hostFields], by simp [hostFields, hreserved]⟩
  all_goals
    exact decodeFields_of_accepted (by simp [operation, hostFields, fieldV_toInt, hwf])
      (accepted_of_unused rfl rfl (by simp [hostFields]) (by simp [hostFields]))

/-! ### Masks -/

/-- The bits of two sets of fields that are set in both. -/
def Fields.and (f g : Fields) : Fields :=
  ⟨f.op &&& g.op, f.f0 && g.f0, f.f1 && g.f1, f.fr &&& g.fr, f.a &&& g.a, f.v &&& g.v,
    ⟨f.s.s0 &&& g.s.s0, f.s.s1 &&& g.s.s1, f.s.s2 &&& g.s.s2, f.s.s3 &&& g.s.s3⟩⟩

/-- The mask of a field that an opcode may not use: every bit of it where it does not (R67). -/
def unusedMask (n : Nat) (used : Bool) : BitVec n := if used then 0 else BitVec.allOnes n

/-- The bits that an opcode fixes, as fields: the opcode, `FR`, every unused field, and the reserved bits of an indicator
position (R62, R65, R67). -/
def fixedFields (op : BitVec 4) : Fields where
  op := BitVec.allOnes 4
  f0 := !(usedFields op).f0
  f1 := !(usedFields op).f1
  fr := BitVec.allOnes 2
  a := if op = 0x9 then 0xC8 else unusedMask 8 (usedFields op).a
  v := unusedMask 16 (usedFields op).v
  s := ⟨unusedMask 8 (usedFields op).s, unusedMask 8 (usedFields op).s, unusedMask 8 (usedFields op).s,
    unusedMask 8 (usedFields op).s⟩

/-- Under its mask a field is 0 exactly if it is used or holds 0 (R67). -/
theorem and_unusedMask_eq_zero_iff {n : Nat} (x : BitVec n) (used : Bool) :
    x &&& unusedMask n used = 0 ↔ used = true ∨ x = 0 := by
  cases used <;> simp [unusedMask]

/-- Masking a word masks its fields (R61). -/
theorem packWord_and (f g : Fields) : packWord f &&& packWord g = packWord (f.and g) := by
  simp only [packWord, packBuffer, Fields.and, ← BitVec.ofBool_and_ofBool, ← BitVec.and_append]

/-- A word is made of one set of fields (R61). -/
theorem packWord_injective : Function.Injective packWord :=
  Function.LeftInverse.injective splitWord_packWord

/-- Under its mask `A` is 0 exactly if it is used or holds 0, and no reserved bit of an indicator position is set (R65). -/
theorem and_fixedFields_a_eq_zero_iff (a : Byte) (op : BitVec 4) :
    a &&& (fixedFields op).a = 0 ↔
      ((usedFields op).a = true ∨ a = 0) ∧ ¬(op = 0x9 ∧ positionReserved a = true) := by
  by_cases h9 : op = 0x9
  · have hmask : (fixedFields op).a = 0xC8 := if_pos h9
    have hused : (usedFields op).a = true := by rw [h9]; rfl
    have hreserved : ∀ a : Byte, a &&& 0xC8 = 0 ↔ ¬positionReserved a = true := by decide
    rw [hmask, hreserved]
    exact ⟨fun h => ⟨.inl hused, fun ⟨_, hr⟩ => h hr⟩, fun ⟨_, h⟩ hr => h ⟨h9, hr⟩⟩
  · have hmask : (fixedFields op).a = unusedMask 8 (usedFields op).a := if_neg h9
    rw [hmask, and_unusedMask_eq_zero_iff]
    exact ⟨fun h => ⟨h, fun ⟨h9', _⟩ => h9 h9'⟩, fun ⟨h, _⟩ => h⟩

/-- The bits that an opcode fixes are as the encoder leaves them exactly if the fields have that opcode and pass the checks
that are not about a blank digit's value (R67). -/
theorem and_fixedFields_eq_iff (f : Fields) (op : BitVec 4) :
    f.and (fixedFields op) = hostFields op ↔
      f.op = op ∧ f.fr = 0 ∧ unusedSet f = false ∧ ¬(f.op = 0x9 ∧ positionReserved f.a = true) := by
  obtain ⟨op', f0, f1, fr, a, v, s0, s1, s2, s3⟩ := f
  have hflag : ∀ flag used : Bool, (flag && !used) = false ↔ used = true ∨ flag = false := by decide
  rw [unusedSet_eq_false_iff]
  simp only [Fields.and, hostFields, Fields.mk.injEq, Buffer.mk.injEq, zeroBuffer, and_fixedFields_a_eq_zero_iff]
  simp only [fixedFields, BitVec.and_allOnes, and_unusedMask_eq_zero_iff, hflag, ← or_and_left]
  constructor
  · rintro ⟨rfl, hf0, hf1, hfr, ⟨ha, hposition⟩, hv, hs⟩
    exact ⟨rfl, hfr, ⟨hf0, hf1, ha, hv, hs⟩, hposition⟩
  · rintro ⟨rfl, hfr, ⟨hf0, hf1, ha, hv, hs⟩, hposition⟩
    exact ⟨rfl, hf0, hf1, hfr, ⟨ha, hposition⟩, hv, hs⟩

end Sys2Proof
end

section
/-! SUPPORT. What a request that stands first does to the step, the bytes of the wire commands, the result word as a number,
and the operands of a line. -/

namespace Sys2Proof.Machine

open Sys2Proof.Claims

/-! ### Requests that stand first -/

/-- A reserved word that stands first is refused with its reason (R67, R68). -/
theorem step_of_reserved {s : State} {w : Word} {rest : List Request} {r : RefuseReason} (hi : s.inbox = .host w :: rest)
    (hd : decodeHost w = .error r) : step s = .next (refusedBy (.reserved w) r { s with inbox := rest }) := by
  have hf : fetch s = .reserved w r { s with inbox := rest } := by
    unfold fetch
    simp [hi, hd]
  rw [step, hf]
  rfl

/-- A request that is placed first and decodes is run in the state in which it was placed (R61, R70). -/
theorem step_issueNext {s : State} {r : Request} {i : Instr} (hd : decode s.cfg r = some i) :
    step (issueNext r s) = exec i s := by
  rw [step, fetch_of_decode (issueNext_inbox r s) hd]
  rfl

/-- A table word of more than 8 bits is a host word (log entry 12). -/
theorem tableRequest_host (c : Config) (w : Word) : tableRequest c 64 w.toNat = .host w := by
  simp [tableRequest]

/-- A table word of 8 bits that is a wire command is that byte (log entry 12). -/
theorem tableRequest_wire {c : Config} {b : Byte} {i : Instr} (h : decodeWire c b = some i) :
    tableRequest c 8 b.toNat = .wire b := by
  simp [tableRequest, h]

/-! ### Wire commands -/

/-- A display-control byte as a number: `0x80 + 8 N + LLL` (R72). -/
theorem displayByte_eq_ofNat (on : Bool) (level : BitVec 3) :
    displayByte on (level.setWidth 8) = BitVec.ofNat 8 (0x80 + 8 * on.toNat + level.toNat) := by
  revert on level; decide

/-- A byte `1000 NLLL` is the display-control byte of its fields (R72). -/
theorem displayByte_of_fields {b : Byte} (h : b.extractLsb' 4 4 = 0x8) :
    displayByte (b.getLsbD 3) ((b.extractLsb' 0 3).setWidth 8) = b := by
  revert b; decide

/-- An address-command byte as a number: `0xC0 + AAAA` (R73). -/
theorem addressByte_eq_ofNat (a : BitVec 4) : addressByte a = BitVec.ofNat 8 (0xC0 + a.toNat) := by
  revert a; decide

/-- The fields of an address-command byte (R73). -/
theorem addressByte_fields (a : BitVec 4) :
    byteClass (addressByte a) = 3 ∧ (addressByte a).extractLsb' 4 4 = 0xC ∧ (addressByte a).extractLsb' 0 4 = a := by
  revert a; decide

/-- A byte `1100 AAAA` is the address-command byte of its address (R73). -/
theorem addressByte_of_fields {b : Byte} (h : b.extractLsb' 4 4 = 0xC) : addressByte (b.extractLsb' 0 4) = b := by
  revert b; decide

/-- An address-command byte is read as the command it was made of (R73). -/
theorem decodeWire_addressByte {c : Config} (h : configOk c = true) (a : BitVec 4) :
    decodeWire c (addressByte a) = some (.addrCmd a) := by
  obtain ⟨hclass, hhigh, ha⟩ := addressByte_fields a
  obtain ⟨hauto, hfixed⟩ := ne_dataCmd_of_byteClass h (b := addressByte a) (by simp [hclass])
  rw [decodeWire, if_neg hauto, if_neg hfixed, if_neg (by rw [hhigh]; decide), if_pos hhigh, ha]

/-- The wire byte that the encoder gives for a command decodes to that command (R71 to R73). -/
theorem decodeWire_of_encode {c : Config} {i : Instr} {b : Byte} (hc : configOk c = true) (h : encode c i = .wire b) :
    decodeWire c b = some i := by
  cases i <;> simp only [encode, reduceCtorEq, Request.wire.injEq] at h <;> subst b
  case dataCmdAuto => exact decodeWire_dataCmdAuto c
  case dataCmdFixed => exact decodeWire_dataCmdFixed hc
  case displayCtrl on level => exact decodeWire_displayByte hc on level
  case addrCmd a => exact decodeWire_addressByte hc a

/-- A wire byte that decodes is the byte that the encoder gives (R71 to R73). -/
theorem encode_of_decodeWire {c : Config} {b : Byte} {i : Instr} (h : decodeWire c b = some i) :
    i.wf = true ∧ encode c i = .wire b := by
  simp only [decodeWire] at h
  split_ifs at h with hauto hfixed hdisplay haddress <;> cases h <;> refine ⟨rfl, congrArg Request.wire ?_⟩
  · exact hauto.symm
  · exact hfixed.symm
  · exact displayByte_of_fields hdisplay
  · exact addressByte_of_fields haddress

/-! ### Result words -/

/-- A result word is the word of the number that its fields make (R69). -/
theorem packResult_eq_ofNat (f : ResultFields) :
    packResult f = BitVec.ofNat 64 ((packBuffer f.buf).toNat * 2 ^ 32 + f.byte.toNat * 2 ^ 16 + f.beT.toNat * 2 ^ 12
      + f.beK.toNat * 2 ^ 8 + f.ack.toNat * 2 ^ 4 + f.status.toNat) := by
  apply BitVec.eq_of_toNat_eq
  rw [packResult, toNat_append_eq, toNat_append_eq, toNat_append_eq, toNat_append_eq, toNat_append_eq, toNat_append_eq,
    toNat_append_eq, toNat_append_eq, BitVec.toNat_ofBool, BitVec.toNat_ofBool, BitVec.toNat_ofNat]
  simp only [BitVec.ofNat_eq_ofNat, BitVec.toNat_zero]
  have hbeT := f.beT.toNat_lt
  have hack := f.ack.toNat_lt
  omega

/-! ### The operands of a line -/

/-- The number that a byte is written as is read as that byte (R75). -/
@[simp] theorem asmByte_toNat (b : Byte) : asmByte b.toNat = some b := by
  have hb : b.toNat < 256 := b.isLt
  rw [asmByte, if_pos (by omega), BitVec.ofInt_natCast, BitVec.ofNat_toNat, BitVec.setWidth_eq]

/-- The numbers that a buffer is written as are read as that buffer (R75). -/
@[simp] theorem asmBuffer_toNat (b : Buffer) : asmBuffer b.s0.toNat b.s1.toNat b.s2.toNat b.s3.toNat = some b := by
  simp [asmBuffer]

/-- The operand word that a flag is written as is read as that flag, if the two words differ (R75). -/
theorem asmFlag_ite {yes no : Keyword} (h : no ≠ yes) (flag : Bool) :
    asmFlag yes no (if flag then yes else no) = some flag := by
  cases flag <;> simp [asmFlag, h]

/-- The line that a well-formed host operation is written as assembles to it (R75). -/
theorem assemble_of_disassemble {i : Instr} {l : AsmLine} (hwf : i.wf = true) (h : disassemble i = some l) :
    assemble l = some i := by
  cases i <;> simp only [disassemble, Option.some.injEq, reduceCtorEq] at h <;> subst l
  case encDigit value blank =>
    cases blank with
    | false => rfl
    | true =>
      obtain rfl : value = 0 := by simp_all [Instr.wf]
      rfl
  all_goals simp [assemble, numOf, numsOf, wordOf, asmFlag_ite]

end Sys2Proof.Machine
end

section
/-! SUPPORT. The rows of the opcode table as the fields that the decoder checks, and the worked encodings. -/

namespace Sys2Proof.Claims

open Sys2Proof.Machine

/-- The HOST64 rows are the rows of R62: `match` is the opcode alone, and `mask` the bits that the opcode fixes. -/
theorem hostRows_eq_fields :
    ∀ row ∈ hostRows, row.bits = packWord (hostFields row.opcode) ∧ row.mask = packWord (fixedFields row.opcode) := by
  decide

/-- The opcodes that have a row are those that are not reserved (R62, R67). -/
theorem exists_hostRow_iff (op : BitVec 4) : (∃ row ∈ hostRows, row.opcode = op) ↔ ¬(op = 0x0 ∨ op = 0xF) := by
  revert op; decide

/-- A word matches a row exactly if it has the row's opcode and passes the checks that are not about a blank digit's value
(R62, R67). -/
theorem matches_hostRow_iff {row : HostRow} (hrow : row ∈ hostRows) (w : Word) :
    w &&& row.mask = row.bits ↔ (splitWord w).op = row.opcode ∧ (splitWord w).fr = 0 ∧ unusedSet (splitWord w) = false ∧
      ¬((splitWord w).op = 0x9 ∧ positionReserved (splitWord w).a = true) := by
  obtain ⟨hbits, hmask⟩ := hostRows_eq_fields row hrow
  rw [hbits, hmask, ← and_fixedFields_eq_iff, ← packWord_injective.eq_iff, ← packWord_and, packWord_splitWord]

/-- The operation of some fields is one of their opcode (R62). -/
theorem opcodeOf_of_operation {f : Fields} {i : Instr} (h : operation f = some i) : opcodeOf i = some f.op := by
  obtain ⟨⟨⟨op, hop⟩⟩, f0, f1, fr, a, v, s⟩ := f
  interval_cases op <;> simp [operation] at h <;> subst i <;> rfl

/-- A line that assembles to a well-formed operation is, with the word it is encoded in, a worked encoding (R76). -/
theorem worked_encoding {text : String} {w : Word} (i : Instr) (ht : assembleText text = some i)
    (he : encode Config.standard i = .host w) (hwf : i.wf = true) :
    ∃ i, assembleText text = some i ∧ encode Config.standard i = .host w ∧ decodeHost w = .ok i :=
  ⟨i, ht, he, decodeHost_of_encode _ hwf he⟩

end Sys2Proof.Claims
end

section
/-! SUPPORT. The statements of 30_encoding.md. -/

namespace Sys2Proof.Claims

open Sys2Proof.Machine

/-- Settles O52: host words by `decodeHost_of_encode`, wire bytes by `decodeWire_of_encode`. -/
theorem decodeOfEncode : Obligations.DecodeOfEncode := by
  unfold Obligations.DecodeOfEncode
  intro c i hc hwf
  cases h : encode c i with
  | host w => exact decode_host_eq_some_iff.2 (decodeHost_of_encode c hwf h)
  | wire b => exact decodeWire_of_encode hc h

/-- Settles O41: the reserved opcodes are those of no operation (`operation_eq_none_iff`), and each of the other reasons is the
failure of one check of `Accepted`. -/
theorem reservedWordsRefused : Obligations.ReservedWordsRefused := by
  unfold Obligations.ReservedWordsRefused
  rintro s w rest f hi rfl
  refine ⟨fun hop => ?_, fun h0 hF => ⟨fun hbad => ?_, fun hfr hunused hblank hposition => ?_⟩⟩
  · have hnone := (operation_eq_none_iff _).2 hop
    exact step_of_reserved hi (by simp [decodeHost, decodeFields, hnone])
  · obtain ⟨i, hop⟩ := exists_operation (not_or_intro h0 hF)
    refine step_of_reserved hi (decodeFields_of_not_accepted hop fun ⟨hfr, hunused, hblank, hposition⟩ => ?_)
    obtain ⟨hf0, hf1, ha, hv, hs⟩ := (unusedSet_eq_false_iff _).1 hunused
    rw [positionReserved_eq_true_iff] at hposition
    rcases hbad with h | ⟨hu, h⟩ | ⟨hu, h⟩ | ⟨hu, h⟩ | ⟨hu, h⟩ | ⟨hu, h⟩ | h | h
    · exact h hfr
    · simp [hu, h] at hf0
    · simp [hu, h] at hf1
    · exact h (ha.resolve_left (ne_true_of_eq_false hu))
    · exact h (hv.resolve_left (ne_true_of_eq_false hu))
    · exact h (hs.resolve_left (ne_true_of_eq_false hu))
    · exact hblank h
    · exact hposition h
  · obtain ⟨i, hop⟩ := exists_operation (not_or_intro h0 hF)
    exact ⟨i, decodeFields_of_accepted hop ⟨hfr, hunused, hblank, hposition⟩, opcodeOf_of_operation hop⟩

/-- Settles O53: host words by `encode_of_accepted`, wire bytes by `encode_of_decodeWire`. -/
theorem encodeOfDecode : Obligations.EncodeOfDecode := by
  unfold Obligations.EncodeOfDecode
  intro c r i h
  cases r with
  | host w =>
    obtain ⟨hop, ha⟩ := decodeFields_eq_ok_iff.1 (decode_host_eq_some_iff.1 h)
    simpa only [packWord_splitWord] using encode_of_accepted c hop ha
  | wire b => exact encode_of_decodeWire h

/-- Settles O54: a row's match is an opcode and the checks of the decoder but one (`matches_hostRow_iff`), and that one is
the table's note on ENC_DIGIT. -/
theorem opcodeTableMatches : Obligations.OpcodeTableMatches := by
  unfold Obligations.OpcodeTableMatches
  refine fun w => ⟨fun row hrow hmatch hblank => ?_, fun i h => ?_⟩
  · obtain ⟨hop, hfr, hunused, hposition⟩ := (matches_hostRow_iff hrow w).1 hmatch
    obtain ⟨i, hi⟩ := exists_operation ((exists_hostRow_iff _).1 ⟨row, hrow, hop.symm⟩)
    refine ⟨i, decodeFields_of_accepted hi ⟨hfr, hunused, fun ⟨h7, hb⟩ => hblank ⟨hop ▸ h7, hb⟩, hposition⟩, ?_⟩
    rw [← hop]
    exact opcodeOf_of_operation hi
  · obtain ⟨hi, hfr, hunused, -, hposition⟩ := decodeFields_eq_ok_iff.1 h
    have hnotReserved : ¬((splitWord w).op = 0x0 ∨ (splitWord w).op = 0xF) := fun hop => by
      simp [(operation_eq_none_iff _).2 hop] at hi
    obtain ⟨row, hrow, hop⟩ := (exists_hostRow_iff _).2 hnotReserved
    refine ⟨row, hrow, ?_, (matches_hostRow_iff hrow w).2 ⟨hop.symm, hfr, hunused, hposition⟩⟩
    rw [hop]
    exact opcodeOf_of_operation hi

/-- Settles O55: the bytes as numbers, and the classes from the fields of the bytes (`displayByte_fields`,
`addressByte_fields`). -/
theorem wireCommandForms : Obligations.WireCommandForms := by
  unfold Obligations.WireCommandForms
  intro c hc
  obtain ⟨-, -, -, -, hauto, hfixed, -, -⟩ := configOk_bounds hc
  refine ⟨rfl, rfl, hauto, hfixed, fun on level => ?_, fun a => ?_⟩
  · obtain ⟨hclass, -⟩ := displayByte_fields on level
    rw [← displayByte_eq_ofNat]
    exact ⟨rfl, hclass⟩
  · obtain ⟨hclass, -⟩ := addressByte_fields a
    rw [← addressByte_eq_ofNat]
    exact ⟨rfl, hclass⟩

/-- Settles O57, instruction by instruction (`assemble_of_disassemble`). -/
theorem assembleOfDisassemble : Obligations.AssembleOfDisassemble := by
  unfold Obligations.AssembleOfDisassemble
  exact fun _ _ => assemble_of_disassemble

/-- Settles O32: the closed outcomes by evaluation, the others from the number that the fields make
(`packResult_eq_ofNat`). -/
theorem resultWordLayout : Obligations.ResultWordLayout := by
  unfold Obligations.ResultWordLayout
  refine ⟨fun _ => rfl, by decide, by decide, fun b => ?_, fun b => ?_, fun t k ht hk => ?_, by decide, by decide⟩
  · simp [resultWord, packResult_eq_ofNat, valueFields, packBuffer_toNat, zeroBuffer]
  · have hplaces : (packBuffer b).toNat * 2 ^ 32 =
        b.s3.toNat * 2 ^ 56 + b.s2.toNat * 2 ^ 48 + b.s1.toNat * 2 ^ 40 + b.s0.toNat * 2 ^ 32 := by
      rw [packBuffer_toNat]
      omega
    rw [← hplaces]
    simp [resultWord, packResult_eq_ofNat, valueFields]
  · have hbeT : (t != 0).toNat = t := by interval_cases t <;> rfl
    have hbeK : (BitVec.ofNat 4 k).toNat = k := by rw [BitVec.toNat_ofNat]; omega
    simp [resultWord, packResult_eq_ofNat, errorFields, packBuffer_toNat, zeroBuffer, hbeT, hbeK]

/-- Settles O39: the word is read back as the request it was (`tableRequest_host`, `tableRequest_wire`), which stands first
(`step_issueNext`). -/
theorem placedWordRunsNext : Obligations.PlacedWordRunsNext := by
  unfold Obligations.PlacedWordRunsNext
  refine fun s i => ⟨fun w h => ?_, fun b h => ?_⟩
  · rw [State.withFetchWord, tableRequest_host]
    exact step_issueNext (decode_host_eq_some_iff.2 h)
  · rw [State.withFetchWord, tableRequest_wire h]
    exact step_issueNext h

/-- Settles O56: the lines and the words by evaluation, the way back by the round trip of O52 (`worked_encoding`). -/
theorem workedEncodings : Obligations.WorkedEncodings := by
  unfold Obligations.WorkedEncodings
  simp only [List.forall_mem_cons, List.not_mem_nil, false_implies, implies_true, and_true]
  exact ⟨worked_encoding .sesInit (by decide) rfl rfl,
    worked_encoding (.sesSetBrightness 7) (by decide) rfl rfl,
    worked_encoding (.sesSetBrightness (-1)) (by decide) rfl rfl,
    worked_encoding (.sesSetNumber 905 true) (by decide) rfl rfl,
    worked_encoding (.sesSetNumberInd 905 true 0x80) (by decide) rfl rfl,
    worked_encoding (.sesSetRawSegment 2 0x7F) (by decide) rfl rfl,
    worked_encoding (.busWriteByte 0x40) (by decide) rfl rfl,
    worked_encoding (.cmdSetDataMode true) (by decide) rfl rfl,
    worked_encoding (.cmdSetBrightness 7 true) (by decide) rfl rfl,
    worked_encoding (.cmdWriteDigits 0xC0 ⟨0x00, 0x6F, 0x3F, 0x6D⟩) (by decide) rfl rfl,
    worked_encoding (.encDigit 0 true) (by decide) rfl rfl,
    worked_encoding (.encNumber 10000 true) (by decide) rfl rfl,
    worked_encoding (.encApplyIndicator ⟨0x00, 0x6F, 0x3F, 0x6D⟩ 1 7 true) (by decide) rfl rfl⟩

end Sys2Proof.Claims
end

section
/-! SUPPORT. What each Bus Driver operation answers in each case of its checks, the phase and the result word it ends with, the
words that carry the operations, and the conditions over an event group. -/

namespace Sys2Proof.Machine

open Sys2Proof.Claims

/-! ### Host words -/

/-- A host word is the word of the number that its fields make (R61). -/
theorem packWord_eq_ofNat (f : Fields) :
    packWord f = BitVec.ofNat 64 ((packBuffer f.s).toNat * 2 ^ 32 + f.v.toNat * 2 ^ 16 + f.a.toNat * 2 ^ 8
      + f.fr.toNat * 2 ^ 6 + f.f1.toNat * 2 ^ 5 + f.f0.toNat * 2 ^ 4 + f.op.toNat) := by
  rw [← packWord_toNat, BitVec.ofNat_toNat, BitVec.setWidth_eq]

/-! ### The answers -/

theorem execBusStart_uninitialized {s : State} (h : s.life = .uninitialized) :
    execBusStart s = refuse .busStart .notInitialized s := by
  simp [execBusStart, h]

theorem execBusStart_not_idle {s : State} (hr : s.life = .ready) (hp : phase s ≠ .idle) :
    execBusStart s = refuse .busStart .startInOpenTransaction s := by
  simp [execBusStart, hr, hp]

theorem execBusStart_idle {s : State} (hr : s.life = .ready) (hp : phase s = .idle) :
    execBusStart s = finish .busStart .unit (startSeq s) := by
  simp [execBusStart, hr, hp]

theorem execBusStop_uninitialized {s : State} (h : s.life = .uninitialized) :
    execBusStop s = refuse .busStop .notInitialized s := by
  simp [execBusStop, h]

theorem execBusStop_ready {s : State} (hr : s.life = .ready) : execBusStop s = finish .busStop .unit (stopSeq s) := by
  simp [execBusStop, hr]

theorem byteWrite_uninitialized (i : Instr) (b : Byte) {s : State} (h : s.life = .uninitialized) :
    byteWrite i b s = refuse i .notInitialized s := by
  simp [byteWrite, h]

theorem byteWrite_not_opened (i : Instr) (b : Byte) {s : State} (hr : s.life = .ready) (hp : phase s ≠ .opened) :
    byteWrite i b s = refuse i .byteOutsideTransaction s := by
  simp [byteWrite, hr, hp]

theorem byteWrite_opened (i : Instr) (b : Byte) {s : State} (hp : phase s = .opened) :
    byteWrite i b s = finish i (.ack (drawAt s 0 == s.cfg.ackLevel)) (afterByte b s) := by
  simp [byteWrite, ready_of_phase_opened hp, hp, byteSeq_eq]

/-- A byte-writing instruction writes one byte, which the configuration alone decides (R84, R71 to R73; log entry 3). -/
theorem exists_exec_eq_byteWrite {i : Instr} (h : isByteWrite i = true) (c : Config) :
    ∃ b, ∀ s : State, s.cfg = c → exec i s = byteWrite i b s := by
  cases i with
  | busWriteByte b => exact ⟨b, fun _ _ => rfl⟩
  | dataCmdAuto => exact ⟨c.dataCmdAuto, by rintro s rfl; rfl⟩
  | dataCmdFixed => exact ⟨c.dataCmdFixed, by rintro s rfl; rfl⟩
  | displayCtrl on level => exact ⟨displayByte on (level.setWidth 8), fun _ _ => rfl⟩
  | addrCmd a => exact ⟨addressByte a, fun _ _ => rfl⟩
  | _ => cases h

/-! ### The phase and the result at the end -/

@[simp] theorem phase_answer (i : Issued) (o : OpOutcome) (s : State) : phase (answer i o s) = phase s := rfl

theorem phase_startSeq {s : State} (hr : s.life = .ready) : phase (startSeq s) = .opened :=
  phase_of_set (startSeq s) true true false hr rfl rfl rfl

theorem phase_stopSeq (s : State) : phase (stopSeq s) = .idle := (phase_eq_idle_iff _).2 ⟨rfl, rfl, rfl⟩

theorem phase_afterByte (b : Byte) {s : State} (hr : s.life = .ready) : phase (afterByte b s) = .opened :=
  phase_of_set (afterByte b s) false true s.cfg.dioRestore hr rfl rfl rfl

/-- In phase Idle a stop condition leaves the block state (R88). -/
theorem blockState_stopSeq_of_idle {s : State} (h : phase s = .idle) : blockState (stopSeq s) = blockState s := by
  obtain ⟨hclk, hoe, hout⟩ := (phase_eq_idle_iff s).1 h
  simp [stopSeq_eq, blockState, hclk, hoe, hout]

/-- The last result is the result word of the outcome just recorded (R19, R69). -/
@[simp] theorem lastResult_answer (i : Issued) (o : OpOutcome) (s : State) : lastResult (answer i o s) = resultWord o := by
  simp [lastResult, lastOutcome]

theorem resultWord_unit : resultWord (.ok .unit) = some 0 := by decide

theorem resultWord_ack (observed : Bool) : resultWord (.ok (.ack observed)) = some (if observed then 0x10 else 0) := by
  cases observed <;> decide

/-! ### The transitions of a byte -/

/-- The device's answer shows in the sample of a BYTE group only (R85). -/
theorem filter_isTransition_byte (restore : Level) (b : Byte) (v w : Level) :
    ((Group.byte b v).events restore).filter isTransition = ((Group.byte b w).events restore).filter isTransition := rfl

/-- What a byte write does to the block state, the mark and the transitions does not depend on the device's answers (R85). -/
theorem byteWrite_ignores_draws {i : Instr} {b : Byte} {s s' t u : State} {draws : List Level} {drawn : Nat}
    (hs : s' = { s with draws := draws, drawn := drawn }) (ht : byteWrite i b s = .next t)
    (hu : byteWrite i b s' = .next u) :
    blockState u = blockState t ∧ u.refused = t.refused ∧
      u.trace.filter isTransition = t.trace.filter isTransition := by
  have hlife : s'.life = s.life := by rw [hs]
  have hphase : phase s' = phase s := by rw [hs]; rfl
  cases hl : s.life with
  | uninitialized =>
    rw [byteWrite_uninitialized i b hl] at ht
    rw [byteWrite_uninitialized i b (hlife.trans hl)] at hu
    cases ht; cases hu; subst hs
    exact ⟨rfl, rfl, rfl⟩
  | ready =>
    by_cases hp : phase s = .opened
    · rw [byteWrite_opened i b hp] at ht
      rw [byteWrite_opened i b (hphase.trans hp)] at hu
      cases ht; cases hu; subst hs
      refine ⟨rfl, rfl, ?_⟩
      simp only [answer_trace, afterByte, List.filter_append]
      rw [filter_isTransition_byte]
    · rw [byteWrite_not_opened i b hl hp] at ht
      rw [byteWrite_not_opened i b (hlife.trans hl) (hphase ▸ hp)] at hu
      cases ht; cases hu; subst hs
      exact ⟨rfl, rfl, rfl⟩

/-! ### The conditions over an event group -/

/-- From the idle levels a START group is one start condition (R80, R89). -/
theorem conditions_start (restore : Level) : conditions true (some true) (Group.start.events restore) = [.start] := by
  simp [Group.events, conditions]

/-- From any levels a STOP group is one stop condition (R80, R89). -/
theorem conditions_stop (clk : Level) (dio : Option Level) (restore : Level) :
    conditions clk dio (Group.stop.events restore) = [.stop] := by
  simp [Group.events, conditions]

/-- The data line moves in the bits of a byte while the clock is low only, so no condition arises before the master releases
it (R82, R89). -/
theorem conditions_bits (clk : Level) (dio : Option Level) (vs : List Level) (es : List Event) :
    conditions clk dio (vs.flatMap bitEvents ++ .clk false :: .release :: es) = conditions false none es := by
  induction vs generalizing clk dio with
  | nil => rfl
  | cons v rest ih => simp [bitEvents, conditions, ih]

/-- No condition arises inside a byte (R89). -/
theorem conditions_byte (clk : Level) (dio : Option Level) (restore : Level) (b : Byte) (v : Level) :
    conditions clk dio ((Group.byte b v).events restore) = [] := by
  rw [Group.events, conditions_bits]
  simp [conditions]

end Sys2Proof.Machine
end

section
/-! SUPPORT. The statements of 40_bus_driver.md. -/

namespace Sys2Proof.Claims

open Sys2Proof.Machine

/-- Settles O4, for each case of BUS_START's checks. -/
theorem busStartMeaning : Obligations.BusStartMeaning := by
  unfold Obligations.BusStartMeaning
  refine ⟨fun _ => rfl, fun s => ⟨execBusStart_uninitialized, execBusStart_not_idle, fun ⟨hr, hp⟩ => ?_⟩⟩
  refine ⟨_, execBusStart_idle hr hp, ?_, phase_startSeq hr, ?_⟩
  · rw [startSeq_eq]
    rfl
  · rw [lastResult_answer, resultWord_unit]

/-- Settles O5, for each case of a byte write's checks: in phase Open the events are those of a BYTE group. -/
theorem busWriteByteMeaning : Obligations.BusWriteByteMeaning := by
  unfold Obligations.BusWriteByteMeaning
  refine fun b => ⟨fun c => ?_, fun s => ⟨byteWrite_uninitialized _ b, byteWrite_not_opened _ b, fun hr hp => ?_⟩⟩
  · simp [encode, packWord_eq_ofNat, hostFields, packBuffer_toNat, zeroBuffer]
  · refine ⟨_, (Group.byte b (drawAt s 0)).events s.cfg.dioRestore, byteWrite_opened _ b hp, rfl, rfl, rfl, rfl,
      phase_afterByte b hr, ?_⟩
    rw [lastResult_answer, resultWord_ack]
    simp only [beq_iff_eq]

/-- Settles O6, for each case of BUS_STOP's check. -/
theorem busStopMeaning : Obligations.BusStopMeaning := by
  unfold Obligations.BusStopMeaning
  refine ⟨fun _ => rfl, fun s => ⟨execBusStop_uninitialized, fun hr => ?_⟩⟩
  refine ⟨_, execBusStop_ready hr, ?_, phase_stopSeq s, ?_, blockState_stopSeq_of_idle⟩
  · rw [stopSeq_eq]
    rfl
  · rw [lastResult_answer, resultWord_unit]

/-- Settles O8: both states write the same byte (`exists_exec_eq_byteWrite`), and the answer shows in its sample only
(`byteWrite_ignores_draws`). -/
theorem byteWriteIgnoresTheDraw : Obligations.ByteWriteIgnoresTheDraw := by
  unfold Obligations.ByteWriteIgnoresTheDraw
  intro i s t u draws drawn hi ht hu
  obtain ⟨b, hexec⟩ := exists_exec_eq_byteWrite hi s.cfg
  rw [hexec s rfl] at ht
  rw [hexec { s with draws := draws, drawn := drawn } rfl] at hu
  exact byteWrite_ignores_draws rfl ht hu

/-- Settles O9: what each operation appends is its event group, or nothing where a byte write is refused, and the conditions
over each group are counted by `conditions_start`, `conditions_byte` and `conditions_stop`. -/
theorem noSpuriousConditions : Obligations.NoSpuriousConditions := by
  unfold Obligations.NoSpuriousConditions
  intro s t clk dio es hr hclk _ hout
  refine ⟨fun hp h htrace => ?_, fun b h htrace => ?_, fun h htrace => ?_⟩
  · obtain ⟨hclk1, -, hout1⟩ := (phase_eq_idle_iff s).1 hp
    obtain rfl : clk = true := Reg.val.inj (hclk.symm.trans hclk1)
    obtain rfl : dio = true := Reg.val.inj (hout.symm.trans hout1)
    rw [exec, execBusStart_idle hr hp] at h
    cases h
    rw [answer_trace, startSeq_eq] at htrace
    rw [← List.append_cancel_left htrace, conditions_start]
  · by_cases hp : phase s = .opened
    · rw [exec, execBusWriteByte, byteWrite_opened _ b hp] at h
      cases h
      rw [← List.append_cancel_left htrace, conditions_byte]
    · rw [exec, execBusWriteByte, byteWrite_not_opened _ b hr hp] at h
      cases h
      obtain rfl : es = [] := List.self_eq_append_right.1 htrace
      rfl
  · rw [exec, execBusStop_ready hr] at h
    cases h
    rw [answer_trace, stopSeq_eq] at htrace
    rw [← List.append_cancel_left htrace, conditions_stop]

end Sys2Proof.Claims
end

section
/-! SUPPORT. What a gated operation refuses, and the groups of a transaction from phase Idle as the statements write them:
acknowledged in full, or ended at its first byte that is not. -/

namespace Sys2Proof.Machine

open Sys2Proof.Claims

/-! ### The refusals -/

theorem commandGate_uninitialized (i : Instr) {s : State} (body : Host.Outcome State Fault Refusal)
    (h : s.life = .uninitialized) : commandGate i s body = refuse i .notInitialized s := by
  simp [commandGate, h]

theorem commandGate_not_idle (i : Instr) {s : State} (body : Host.Outcome State Fault Refusal) (hr : s.life = .ready)
    (hp : phase s ≠ .idle) : commandGate i s body = refuse i .commandInOpenTransaction s := by
  simp [commandGate, hr, hp]

/-- An operation behind the gate is refused as R109, R141 and R144 say. -/
theorem gated_of_commandGate {i : Instr} {body : State → Host.Outcome State Fault Refusal}
    (h : ∀ s, exec i s = commandGate i s (body s)) : Gated i := fun s =>
  ⟨fun hu => (h s).trans (commandGate_uninitialized i _ hu), fun hr hp => (h s).trans (commandGate_not_idle i _ hr hp)⟩

/-! ### The groups of a transaction -/

theorem byteGroups_append (s : State) (n : Nat) (xs ys : List Byte) :
    byteGroups s n (xs ++ ys) = byteGroups s n xs ++ byteGroups s (n + xs.length) ys := by
  induction xs generalizing n with
  | nil => rfl
  | cons x rest ih => simp [byteGroups, ih, Nat.add_assoc, Nat.add_comm 1]

/-- Bytes that the device acknowledges are BYTE groups with the acknowledging level (R86). -/
theorem byteGroups_acked {s : State} {n : Nat} {bytes : List Byte}
    (hack : ∀ j < bytes.length, drawAt s (n + j) = s.cfg.ackLevel) :
    byteGroups s n bytes = ackedBytes s.cfg bytes := by
  induction bytes generalizing n with
  | nil => rfl
  | cons b rest ih =>
    have h0 : drawAt s n = s.cfg.ackLevel := hack 0 (Nat.succ_pos _)
    have hrest := ih (n := n + 1) fun j hj => by
      rw [Nat.add_assoc, Nat.add_comm 1 j]; exact hack (j + 1) (Nat.succ_lt_succ hj)
    rw [byteGroups, h0, hrest]
    rfl

/-- The bytes up to the first that the device does not acknowledge: the others, then that one with the other level (R86,
R102). -/
theorem byteGroups_nacked {s : State} {n k : Nat} {bytes : List Byte} (hk : k < bytes.length)
    (hack : ∀ j < k, drawAt s (n + j) = s.cfg.ackLevel) (hnack : drawAt s (n + k) ≠ s.cfg.ackLevel) :
    byteGroups s n (bytes.take (k + 1)) =
      ackedBytes s.cfg (bytes.take k) ++ [.byte (bytes.getD k 0) (!s.cfg.ackLevel)] := by
  have hlen : (bytes.take k).length = k := List.length_take_of_le hk.le
  rw [List.take_succ_eq_append_getElem hk, byteGroups_append, hlen, byteGroups_acked (by rwa [hlen]), byteGroups,
    Bool.eq_not.2 hnack, List.getD_eq_getElem _ _ hk]
  rfl

/-! ### The ends of an operation -/

/-- An operation that ends before any line event changes the record only. -/
theorem answer_eq_after (i : Instr) (o : OpOutcome) (s : State) : answer (.op i) o s = after s i [] 0 o := by
  simp [answer, after, groupEvents]

/-- An operation that ends after one transaction from phase Idle changes the trace, the answers and the record only (R102). -/
theorem answer_afterTxn_of_idle (i : Instr) (o : OpOutcome) (sent : List Byte) {s : State} (hp : phase s = .idle) :
    answer (.op i) o (afterTxn sent s) = after s i (.start :: byteGroups s 0 sent ++ [.stop]) sent.length o := by
  rw [afterTxn_idle sent s hp]
  rfl

/-- A command of one transaction, acknowledged in full, ends in Ok (R102). -/
theorem transact_finish_of_acked (i : Instr) (t : Nat) {bytes : List Byte} {s : State} (hp : phase s = .idle)
    (hne : bytes ≠ []) (hack : AcksFirst s bytes.length) :
    transact i t bytes s (finish i .unit) =
      .next (after s i (ackedTxn s.cfg bytes) bytes.length (.ok .unit)) := by
  rw [transact_acked i t _ hne hack, finish, answer_afterTxn_of_idle i _ _ hp, byteGroups_acked (by simpa using hack)]
  rfl

/-- A transaction ends its operation at the first byte that is not acknowledged (R102, R108). -/
theorem transact_nacked (i : Instr) (t : Nat) {bytes : List Byte} {k : Nat} {s : State}
    (andThen : State → Host.Outcome State Fault Refusal) (hk : k < bytes.length) (hnack : FirstNack s k) :
    transact i t bytes s andThen = raise i (.busError t k) (afterTxn (bytes.take (k + 1)) s) := by
  obtain ⟨hack, hnack⟩ := hnack
  rw [transact, txn_nacked bytes k s hk hack hnack]

/-- A transaction from phase Idle ends its operation in BusError at the first byte that is not acknowledged (R102, R108). -/
theorem transact_of_nacked (i : Instr) (t : Nat) {bytes : List Byte} {k : Nat} {s : State}
    (andThen : State → Host.Outcome State Fault Refusal) (hp : phase s = .idle) (hk : k < bytes.length)
    (hnack : FirstNack s k) :
    transact i t bytes s andThen =
      .next (after s i (nackedTxn s.cfg bytes k) (k + 1) (.error (.busError t k))) := by
  have hlen : (bytes.take (k + 1)).length = k + 1 := List.length_take_of_le hk
  rw [transact_nacked i t _ hk hnack, raise, answer_afterTxn_of_idle i _ _ hp, hlen]
  obtain ⟨hack, hdenied⟩ := hnack
  rw [byteGroups_nacked hk (by simpa using hack) (by simpa using hdenied)]
  simp [nackedTxn]

/-! ### Operands -/

/-- The segment bytes at their places in a host word (R61). -/
theorem packBuffer_toNat_mul (b : Buffer) : (packBuffer b).toNat * 2 ^ 32 =
    b.s3.toNat * 2 ^ 56 + b.s2.toNat * 2 ^ 48 + b.s1.toNat * 2 ^ 40 + b.s0.toNat * 2 ^ 32 := by
  rw [packBuffer_toNat]
  omega

/-- A level out of the instance's range is rejected before any line event (R103, R104). -/
theorem exec_cmdSetBrightness_out_of_range {level : Int} (on : Bool) {s : State} (hr : s.life = .ready)
    (hp : phase s = .idle) (hbad : brightnessOk s.cfg level = false) :
    exec (.cmdSetBrightness level on) s = raise (.cmdSetBrightness level on) .invalidArgument s := by
  rw [exec, execCmdSetBrightness, commandGate_open _ s _ hr hp, if_pos hbad]

/-- The display-control byte that is sent is the one of R103. -/
theorem displayByte_eq_displayControl (on : Bool) (level : Int) :
    displayByte on (BitVec.ofInt 8 level) = displayControl on level := by
  cases on <;> rfl

end Sys2Proof.Machine
end

section
/-! SUPPORT. The statements of 41_command_protocol.md. -/

namespace Sys2Proof.Claims

open Sys2Proof.Machine

/-- Settles O10, for each flag and each end of the one transaction (`transact_finish_of_acked`, `transact_of_nacked`). -/
theorem cmdSetDataModeMeaning : Obligations.CmdSetDataModeMeaning := by
  unfold Obligations.CmdSetDataModeMeaning
  refine fun auto => ⟨fun _ => by cases auto <;> rfl, gated_of_commandGate fun _ => rfl, ?_⟩
  rintro s cmd ⟨hr, hp⟩ rfl
  rw [exec_cmdSetDataMode_idle auto hr hp]
  exact ⟨fun hack => transact_finish_of_acked _ 0 hp (List.cons_ne_nil _ _) hack,
    fun hnack => transact_of_nacked _ 0 _ hp (Nat.succ_pos _) hnack⟩

/-- Settles O11: out of range by `exec_cmdSetBrightness_out_of_range`, in range for each end of the one transaction
(`transact_finish_of_acked`, `transact_of_nacked`). -/
theorem cmdSetBrightnessMeaning : Obligations.CmdSetBrightnessMeaning := by
  unfold Obligations.CmdSetBrightnessMeaning
  refine fun level on => ⟨fun c _ => ?_, fun c hc => ?_, gated_of_commandGate fun _ => rfl, ?_⟩
  · simp [encode, packWord_eq_ofNat, hostFields, packBuffer_toNat, zeroBuffer, fieldV_toNat, valueField, Nat.mul_comm]
  · obtain ⟨hmin, hmax, -⟩ := configOk_bounds hc
    exact ⟨hmin, hmax⟩
  rintro s ⟨hr, hp⟩
  have hsent : s.cfg.brightMin ≤ level → level ≤ s.cfg.brightMax → exec (.cmdSetBrightness level on) s =
      transact (.cmdSetBrightness level on) 0 [displayControl on level] s (finish (.cmdSetBrightness level on) .unit) := by
    intro hmin hmax
    rw [← displayByte_eq_displayControl]
    exact exec_cmdSetBrightness_idle on hr hp (decide_eq_true ⟨hmin, hmax⟩)
  refine ⟨fun hbad => ?_, fun hmin hmax hack => ?_, fun hmin hmax hnack => ?_⟩
  · have hout : ¬(s.cfg.brightMin ≤ level ∧ level ≤ s.cfg.brightMax) := by omega
    rw [exec_cmdSetBrightness_out_of_range on hr hp (decide_eq_false hout), raise, answer_eq_after]
  · rw [hsent hmin hmax]
    exact transact_finish_of_acked _ 0 hp (List.cons_ne_nil _ _) hack
  · rw [hsent hmin hmax]
    exact transact_of_nacked _ 0 _ hp (Nat.succ_pos _) hnack

/-- Settles O12, for each end of the one transaction (`transact_finish_of_acked`, `transact_of_nacked`). -/
theorem cmdWriteDigitsMeaning : Obligations.CmdWriteDigitsMeaning := by
  unfold Obligations.CmdWriteDigitsMeaning
  refine fun base b => ⟨fun c => ?_, gated_of_commandGate fun _ => rfl, ?_⟩
  · rw [← packBuffer_toNat_mul]
    simp [encode, packWord_eq_ofNat, hostFields]
  rintro s ⟨hr, hp⟩
  rw [exec_cmdWriteDigits_idle base b hr hp]
  exact ⟨fun hack => transact_finish_of_acked _ 0 hp (List.cons_ne_nil _ _) hack,
    fun k hk hnack => transact_of_nacked _ 0 _ hp (Nat.lt_succ_of_le hk) hnack⟩

end Sys2Proof.Claims
end

section
/-! SUPPORT. The encoder operations as one equation each, whose outcome is a function of the operands and the configuration; what
that function gives in each case of its range check; and a buffer bit by bit after an indicator bit is forced. -/

namespace Sys2Proof.Machine

open Sys2Proof.Claims

/-! ### The answers -/

/-- The outcome that reports an encoder function's answer (R123). -/
def encoderOutcome {α : Type} (value : α → OpValue) : Except OpError α → OpOutcome
  | .ok a => .ok (value a)
  | .error e => .error e

theorem encoderOutcome_ne_refusal {α : Type} (value : α → OpValue) (x : Except OpError α) (r : RefuseReason) :
    encoderOutcome value x ≠ .refusal r := by
  cases x <;> simp [encoderOutcome]

theorem encoderOutcome_eq_ok_iff {α : Type} {value : α → OpValue} {x : Except OpError α} {v : OpValue} :
    encoderOutcome value x = .ok v ↔ ∃ a, x = .ok a ∧ value a = v := by
  cases x <;> simp [encoderOutcome]

theorem exec_encDigit (value : Int) (blank : Bool) (s : State) : exec (.encDigit value blank) s =
    .next (after s (.encDigit value blank) [] 0 (encoderOutcome .byte (encodeDigit s.cfg value blank))) := by
  rw [← answer_eq_after, exec, execEncDigit]
  cases encodeDigit s.cfg value blank <;> rfl

theorem exec_encNumber (value : Int) (suppress : Bool) (s : State) : exec (.encNumber value suppress) s =
    .next (after s (.encNumber value suppress) [] 0 (encoderOutcome .buffer (encodeNumber s.cfg value suppress))) := by
  rw [← answer_eq_after, exec, execEncNumber]
  cases encodeNumber s.cfg value suppress <;> rfl

theorem exec_encApplyIndicator (b : Buffer) (d p : Int) (enabled : Bool) (s : State) :
    exec (.encApplyIndicator b d p enabled) s =
      .next (after s (.encApplyIndicator b d p enabled) [] 0 (encoderOutcome .buffer (applyIndicator b d p enabled))) := by
  rw [← answer_eq_after, exec, execEncApplyIndicator]
  cases applyIndicator b d p enabled <;> rfl

/-- The outcome of an encoder operation is a function of the configuration, never a refusal, and all that the operation changes
is the record (R123). -/
theorem exists_encoder_outcome {i : Instr} (h : isEncoder i = true) :
    ∃ o : Config → OpOutcome, (∀ c r, o c ≠ .refusal r) ∧
      ∀ s, exec i s = .next (after s i [] 0 (o s.cfg)) := by
  cases i <;> simp only [isEncoder, Bool.false_eq_true] at h
  case encDigit value blank =>
    exact ⟨fun c => encoderOutcome .byte (encodeDigit c value blank), fun _ => encoderOutcome_ne_refusal _ _,
      exec_encDigit value blank⟩
  case encNumber value suppress =>
    exact ⟨fun c => encoderOutcome .buffer (encodeNumber c value suppress), fun _ => encoderOutcome_ne_refusal _ _,
      exec_encNumber value suppress⟩
  case encApplyIndicator b d p enabled =>
    exact ⟨fun _ => encoderOutcome .buffer (applyIndicator b d p enabled), fun _ => encoderOutcome_ne_refusal _ _,
      exec_encApplyIndicator b d p enabled⟩

@[simp] theorem lastOutcome_after (s : State) (i : Instr) (gs : List Group) (n : Nat) (o : OpOutcome) :
    lastOutcome (after s i gs n o) = some o := by
  simp [lastOutcome, after]

/-! ### One digit -/

/-- Blank has its pattern, whatever value stands beside it (R121). -/
theorem encodeDigit_blank (c : Config) (value : Int) : encodeDigit c value true = .ok c.blankPattern := rfl

/-- A digit has its entry of `SEG_TABLE` (R120, R121). -/
theorem encodeDigit_digit (c : Config) (d : Fin 10) : encodeDigit c d.val false = .ok (c.segTable.get d) := by
  have h : decimalDigit d.val = some d := by
    have hd : (d.val : Int) ≤ 9 := by omega
    simp [decimalDigit, hd]
  simp [encodeDigit, h, segPattern]

/-- Any other value is an invalid argument (R121). -/
theorem encodeDigit_out_of_range (c : Config) {value : Int} (h : value < 0 ∨ 9 < value) :
    encodeDigit c value false = .error .invalidArgument := by
  have hn : decimalDigit value = none := if_neg (by omega)
  simp [encodeDigit, hn]

/-! ### Numbers -/

/-- What stands at a buffer index of a number (R124, R126). -/
theorem numberByte_eq (c : Config) {n : Nat} (suppress : Bool) (hn : n ≤ 9999) (j : Fin 4) :
    numberByte c n suppress j =
      if suppress = true ∧ j.val ≤ 2 ∧ n / 10 ^ (3 - j.val) = 0 then c.blankPattern
      else c.segTable.get (Fin.ofNat 10 (n / 10 ^ (3 - j.val) % 10)) := by
  simp only [numberByte, Bool.and_eq_true, isLeading_iff n hn, segPattern, digitOf_eq]

/-- A number in 0..9999 is encoded in the buffer that holds it (R124). -/
theorem exists_encodeNumber_isNumberBuffer (c : Config) {value : Int} (suppress : Bool) (h0 : 0 ≤ value)
    (h9 : value ≤ 9999) :
    ∃ b, encodeNumber c value suppress = .ok b ∧ IsNumberBuffer c value.toNat suppress b := by
  obtain ⟨b, hb, hbytes⟩ := encodeNumber_of_range c suppress h0 h9
  exact ⟨b, hb, fun j => (hbytes j).trans (numberByte_eq c suppress (by omega) j)⟩

/-! ### Bit 7 of a pattern -/

/-- A byte that the configuration lists as a pattern: that of Blank or that of a digit (R120, R122). -/
def IsPattern (c : Config) (b : Byte) : Prop := b = c.blankPattern ∨ ∃ d, b = c.segTable.get d

/-- No pattern of a configuration within the spec's bounds has bit 7 set (R120, R122). -/
theorem IsPattern.bit_seven {c : Config} {b : Byte} (h : IsPattern c b) (hc : configOk c = true) :
    b.getLsbD 7 = false := by
  rcases h with rfl | ⟨d, rfl⟩
  · obtain ⟨-, -, -, -, -, -, -, hblank⟩ := configOk_bounds hc
    rw [hblank]
    rfl
  · exact configOk_segTable hc d

theorem isPattern_of_encodeDigit {c : Config} {value : Int} {blank : Bool} {b : Byte}
    (h : encodeDigit c value blank = .ok b) : IsPattern c b := by
  unfold encodeDigit at h
  split at h
  · exact .inl (Except.ok.inj h).symm
  · split at h
    · cases h
    · next d _ => exact .inr ⟨d, (Except.ok.inj h).symm⟩

theorem isPattern_numberByte (c : Config) (n : Nat) (suppress : Bool) (j : Fin 4) :
    IsPattern c (numberByte c n suppress j) := by
  unfold numberByte
  split
  · exact .inl rfl
  · exact .inr ⟨_, rfl⟩

theorem isPattern_of_encodeNumber {c : Config} {value : Int} {suppress : Bool} {b : Buffer}
    (h : encodeNumber c value suppress = .ok b) (j : Fin 4) : IsPattern c (bufferByte b j) := by
  by_cases hrange : 0 ≤ value ∧ value ≤ 9999
  · obtain ⟨b', hb', hbytes⟩ := encodeNumber_of_range c suppress hrange.1 hrange.2
    obtain rfl : b' = b := Except.ok.inj (hb'.symm.trans h)
    rw [hbytes]
    exact isPattern_numberByte c _ suppress j
  · rw [encodeNumber_out_of_range c suppress (by omega)] at h
    cases h

/-! ### The indicator -/

/-- The position of an indicator at its place in a host word (R65). -/
theorem packPosition_toNat {d p : Int} (h0 : 0 ≤ d) (h3 : d ≤ 3) (g0 : 0 ≤ p) (g7 : p ≤ 7) :
    (packPosition d p).toNat = d.toNat * 2 ^ 4 + p.toNat := by
  rw [packPosition, toNat_append_eq, toNat_append_eq, toNat_append_eq, BitVec.toNat_ofInt, BitVec.toNat_ofInt]
  simp only [BitVec.ofNat_eq_ofNat, BitVec.toNat_ofNat]
  omega

/-- In range, bit `p` of byte `d` takes the flag's value and every other bit stays (R128). -/
theorem exists_applyIndicator (b : Buffer) {d p : Int} (enabled : Bool) (h0 : 0 ≤ d) (h3 : d ≤ 3) (g0 : 0 ≤ p)
    (g7 : p ≤ 7) :
    ∃ out, applyIndicator b d p enabled = .ok out ∧ ∀ (j : Fin 4) (k : Nat), k < 8 →
      (bufferByte out j).getLsbD k =
        if (j.val : Int) = d ∧ (k : Int) = p then enabled else (bufferByte b j).getLsbD k := by
  obtain ⟨i, hi, rfl⟩ := digitIndex_of_range h0 h3
  obtain ⟨n, rfl⟩ := Int.eq_ofNat_of_zero_le g0
  have hn : bitPosition n = some n := by simp [bitPosition, g7]
  refine ⟨_, by rw [applyIndicator, hi, hn], fun j k hk => ?_⟩
  by_cases hj : j = i
  · subst hj
    rw [bufferByte_withByte_same, forceBits_getLsbD _ n (by omega) enabled k hk]
    simp
  · rw [bufferByte_withByte_of_ne _ _ _ _ hj, if_neg (by omega)]

/-- A digit or a bit out of range is an invalid argument (R128). -/
theorem applyIndicator_out_of_range (b : Buffer) {d p : Int} (enabled : Bool) (h : d < 0 ∨ 3 < d ∨ p < 0 ∨ 7 < p) :
    applyIndicator b d p enabled = .error .invalidArgument := by
  have hnone : digitIndex d = none ∨ bitPosition p = none := by
    simp only [digitIndex, bitPosition, ite_eq_right_iff, reduceCtorEq, imp_false]
    omega
  unfold applyIndicator
  split
  · next hd hp => simp [hd, hp] at hnone
  · rfl

/-- Two buffers with the same 32 bits are the same. -/
theorem buffer_ext_bits {a b : Buffer}
    (h : ∀ (j : Fin 4) (k : Nat), k < 8 → (bufferByte a j).getLsbD k = (bufferByte b j).getLsbD k) : a = b :=
  buffer_ext a b fun j => BitVec.eq_of_getLsbD_eq (h j)

/-! ### Leading zeros -/

/-- The definition of R126: a leading zero stands left of the ones place, and it and every digit to its left are zero. -/
theorem isLeading_iff_zero (n : Nat) (i : Fin 4) :
    isLeading n i = true ↔ i.val ≤ 2 ∧ ∀ j : Fin 4, j ≤ i → digitOf n j = 0 := by
  simp [isLeading, or_iff_not_imp_left]

/-- A leading zero, by the size of the number (R126). -/
theorem isLeading_iff_lt {n : Nat} (hn : n ≤ 9999) (j : Fin 4) :
    isLeading n j = true ↔ j.val ≤ 2 ∧ n < 10 ^ (3 - j.val) := by
  simp [isLeading_iff n hn, Nat.div_eq_zero_iff]

/-- How many leading zeros a number has (R126). -/
theorem countP_isLeading {n : Nat} (hn : n ≤ 9999) : (List.finRange 4).countP (isLeading n) =
    if n < 10 then 3 else if n < 100 then 2 else if n < 1000 then 1 else 0 := by
  have h0 : isLeading n 0 = true ↔ n < 1000 := by simp [isLeading_iff_lt hn]
  have h1 : isLeading n 1 = true ↔ n < 100 := by simp [isLeading_iff_lt hn]
  have h2 : isLeading n 2 = true ↔ n < 10 := by simp [isLeading_iff_lt hn]
  have h3 : isLeading n 3 = false := rfl
  rw [show List.finRange 4 = [0, 1, 2, 3] from rfl]
  simp only [List.countP_cons, List.countP_nil, h0, h1, h2, h3, Bool.false_eq_true, if_false]
  split_ifs <;> omega

end Sys2Proof.Machine
end

section
/-! SUPPORT. The statements of 42_segment_encoder.md. -/

namespace Sys2Proof.Claims

open Sys2Proof.Machine

/-- Settles O14, for Blank, a digit and any other value. -/
theorem encDigitMeaning : Obligations.EncDigitMeaning := by
  unfold Obligations.EncDigitMeaning
  refine ⟨fun _ => rfl, fun c value _ => ?_, fun s value => ⟨?_, ?_, fun hout => ?_⟩⟩
  · simp [encode, packWord_eq_ofNat, hostFields, packBuffer_toNat, zeroBuffer, fieldV_toNat, valueField]
  · rw [exec_encDigit, encodeDigit_blank, encoderOutcome]
  · rintro d rfl
    rw [exec_encDigit, encodeDigit_digit, encoderOutcome]
  · rw [exec_encDigit, encodeDigit_out_of_range _ hout, encoderOutcome]

/-- Settles O15, for a number in range (`exists_encodeNumber_isNumberBuffer`) and out of it. -/
theorem encNumberMeaning : Obligations.EncNumberMeaning := by
  unfold Obligations.EncNumberMeaning
  refine fun s value suppress => ⟨fun c _ => ?_, fun h0 h9 => ?_, fun hout => ?_⟩
  · simp [encode, packWord_eq_ofNat, hostFields, packBuffer_toNat, zeroBuffer, fieldV_toNat, valueField, Nat.mul_comm]
  · obtain ⟨b, hb, hnumber⟩ := exists_encodeNumber_isNumberBuffer s.cfg suppress h0 h9
    exact ⟨b, hnumber, by rw [exec_encNumber, hb, encoderOutcome]⟩
  · rw [exec_encNumber, encodeNumber_out_of_range _ suppress hout, encoderOutcome]

/-- Settles O16, for a position in range (`exists_applyIndicator`) and out of it. -/
theorem encApplyIndicatorMeaning : Obligations.EncApplyIndicatorMeaning := by
  unfold Obligations.EncApplyIndicatorMeaning
  refine fun s b d p enabled => ⟨fun c h0 h3 g0 g7 => ?_, fun h0 h3 g0 g7 => ?_, fun hout => ?_⟩
  · rw [encode, packWord_eq_ofNat, hostFields, packBuffer_toNat_mul, packPosition_toNat h0 h3 g0 g7]
    simp [Nat.add_mul, Nat.mul_assoc, Nat.mul_comm, Nat.add_assoc]
  · obtain ⟨out, hout, hbits⟩ := exists_applyIndicator b enabled h0 h3 g0 g7
    exact ⟨out, by rw [exec_encApplyIndicator, hout, encoderOutcome], hbits⟩
  · rw [exec_encApplyIndicator, applyIndicator_out_of_range b enabled hout, encoderOutcome]

/-- Settles O17: the outcome is a function of the configuration (`exists_encoder_outcome`), and the two states have one. -/
theorem encoderIsPure : Obligations.EncoderIsPure := by
  unfold Obligations.EncoderIsPure
  intro i s t hi hcfg
  obtain ⟨o, hrefusal, hexec⟩ := exists_encoder_outcome hi
  refine ⟨o s.cfg, hrefusal s.cfg, ?_, ?_⟩
  · rw [hexec s, ← answer_eq_after]
    rfl
  · rw [← hcfg, hexec t, ← answer_eq_after]
    rfl

/-- Settles O19, by the definition of a leading zero (`isLeading_iff_zero`) and its form as a quotient, which is counted
(`countP_isLeading`). -/
theorem leadingZeroCount : Obligations.LeadingZeroCount := by
  unfold Obligations.LeadingZeroCount
  exact fun n hn => ⟨isLeading_iff_zero n, countP_isLeading hn⟩

/-- Settles O20: what either operation returns is made of the configuration's patterns, and none has bit 7 set
(`IsPattern.bit_seven`). -/
theorem encoderNeverSetsIndicator : Obligations.EncoderNeverSetsIndicator := by
  unfold Obligations.EncoderNeverSetsIndicator
  refine fun s hc => ⟨fun value blank b t h hlast => ?_, fun value suppress b t h hlast j => ?_⟩
  · rw [exec_encDigit] at h
    cases h
    rw [lastOutcome_after, Option.some.injEq, encoderOutcome_eq_ok_iff] at hlast
    obtain ⟨_, henc, ⟨⟩⟩ := hlast
    exact (isPattern_of_encodeDigit henc).bit_seven hc
  · rw [exec_encNumber] at h
    cases h
    rw [lastOutcome_after, Option.some.injEq, encoderOutcome_eq_ok_iff] at hlast
    obtain ⟨_, henc, ⟨⟩⟩ := hlast
    exact (isPattern_of_encodeNumber henc j).bit_seven hc

/-- Settles O21: bit by bit (`exists_applyIndicator`), the two operations together clear the one bit and leave the others. -/
theorem indicatorRoundTrip : Obligations.IndicatorRoundTrip := by
  unfold Obligations.IndicatorRoundTrip
  intro b d p
  have hd : (d.val : Int) ≤ 3 := by omega
  have hp : (p.val : Int) ≤ 7 := by omega
  obtain ⟨on, hon, honBits⟩ := exists_applyIndicator b true (by omega) hd (by omega) hp
  obtain ⟨off, hoff, hoffBits⟩ := exists_applyIndicator on false (by omega) hd (by omega) hp
  refine ⟨on, off, hon, hoff, fun heq => ?_, fun hclear => buffer_ext_bits fun j k hk => ?_⟩
  · rw [← heq, hoffBits d p p.isLt, if_pos ⟨rfl, rfl⟩]
  · rw [hoffBits j k hk, honBits j k hk]
    split_ifs with hpos
    · obtain ⟨hj, hk⟩ := hpos
      obtain rfl : j = d := by omega
      obtain rfl : k = p.val := by omega
      exact hclear.symm
    · rfl

/-- Settles O18, with each digit as a remainder of a quotient. -/
theorem digitsAreTheDecimalForm : Obligations.DigitsAreTheDecimalForm := by
  unfold Obligations.DigitsAreTheDecimalForm
  intro n hn
  simp only [digitOf, Fin.val_ofNat]
  omega

/-- Settles O22, by evaluating the table; bit 7 is clear because the configuration is within the bounds. -/
theorem defaultPatternsMeetTheBound : Obligations.DefaultPatternsMeetTheBound := by
  unfold Obligations.DefaultPatternsMeetTheBound
  exact ⟨configOk_standard, rfl, by decide, configOk_segTable configOk_standard⟩

end Sys2Proof.Claims
end

section
/-! SUPPORT. A display write as two transactions, each of its three ends from phase Idle; the session operations in each case of
their checks; and what an effect does to the session's registers. -/

namespace Sys2Proof.Machine

open Sys2Proof.Claims

/-! ### Host words -/

/-- A host word of an operation with an integer operand, as a number: `V`, `A`, `F0` and `OP` at their places (R61, R64). -/
theorem packWord_value (op : BitVec 4) (f0 : Bool) (a : Byte) (v : Int) :
    packWord (hostFields op (f0 := f0) (a := a) (v := fieldV v)) =
      BitVec.ofNat 64 (valueField v + a.toNat * 0x100 + 0x10 * f0.toNat + op.toNat) := by
  simp [packWord_eq_ofNat, hostFields, packBuffer_toNat, zeroBuffer, fieldV_toNat, valueField, Nat.mul_comm]

/-! ### A display write -/

/-- An operation that ends after one acknowledged transaction from phase Idle (R102). -/
theorem answer_afterTxn_of_acked (i : Instr) (o : OpOutcome) {bytes : List Byte} {s : State} (hp : phase s = .idle)
    (hack : AcksFirst s bytes.length) :
    answer (.op i) o (afterTxn bytes s) = after s i (ackedTxn s.cfg bytes) bytes.length o := by
  rw [answer_afterTxn_of_idle i o bytes hp, byteGroups_acked (by simpa using hack)]
  rfl

/-- What follows an acknowledged transaction from phase Idle, counted from before the transaction (R102, R145). -/
theorem after_afterTxn_of_acked (bytes : List Byte) (i : Instr) (gs : List Group) (n : Nat) (o : OpOutcome) {s : State}
    (hp : phase s = .idle) (hack : AcksFirst s bytes.length) :
    after (afterTxn bytes s) i gs n o = after s i (ackedTxn s.cfg bytes ++ gs) (bytes.length + n) o := by
  rw [afterTxn_idle bytes s hp, byteGroups_acked (by simpa using hack)]
  simp [after, ackedTxn, groupEvents, Nat.add_assoc]

/-- The device's answers after a transaction are acknowledgements up to where they were before it. -/
theorem acksFirst_afterTxn {bytes : List Byte} {s : State} {n : Nat} (h : AcksFirst s (bytes.length + n)) :
    AcksFirst (afterTxn bytes s) n := fun j hj => by
  rw [drawAt_afterTxn, afterTxn_cfg]
  exact h _ (Nat.add_lt_add_left hj _)

/-- The first missing acknowledgement after a transaction is the one there was before it, so many samples nearer. -/
theorem firstNack_afterTxn {bytes : List Byte} {s : State} {k : Nat} (h : FirstNack s (bytes.length + k)) :
    FirstNack (afterTxn bytes s) k := by
  obtain ⟨hack, hnack⟩ := h
  refine ⟨acksFirst_afterTxn hack, ?_⟩
  rwa [drawAt_afterTxn, afterTxn_cfg]

/-- A display write whose first transaction is acknowledged goes on to the second (R145). -/
theorem writeDisplay_of_first_acked (i : Instr) (b : Buffer) {s : State} (hack : AcksFirst s 1) :
    writeDisplay i b s = transact i 1 (s.cfg.baseAddr :: bufferBytes b) (afterTxn [s.cfg.dataCmdAuto] s)
      fun s2 => finish i .unit { s2 with buf := .val b } := by
  rw [writeDisplay, transact_acked i 0 (bytes := [s.cfg.dataCmdAuto]) _ (List.cons_ne_nil _ _) hack]

/-- A display write that is acknowledged in full stores its buffer (R145). -/
theorem writeDisplay_of_acked (i : Instr) (b : Buffer) {s : State} (hp : phase s = .idle) (hack : AcksFirst s 6) :
    writeDisplay i b s = .next { after s i
      (ackedTxn s.cfg [s.cfg.dataCmdAuto] ++ ackedTxn s.cfg (s.cfg.baseAddr :: bufferBytes b)) 6 (.ok .unit) with
      buf := .val b } := by
  have hfirst : AcksFirst s 1 := fun j hj => hack j (by omega)
  have hsecond : AcksFirst (afterTxn [s.cfg.dataCmdAuto] s) (s.cfg.baseAddr :: bufferBytes b).length :=
    acksFirst_afterTxn hack
  have hend := answer_afterTxn_of_acked i (.ok .unit) (phase_afterTxn _ s) hsecond
  rw [after_afterTxn_of_acked [s.cfg.dataCmdAuto] i _ _ _ hp hfirst] at hend
  rw [writeDisplay_of_first_acked i b hfirst, transact_acked i 1 _ (List.cons_ne_nil _ _) hsecond]
  exact congrArg (fun t : State => Host.Outcome.next { t with buf := .val b }) hend

/-- A display write ends in BusError(1, k) at byte `k` of the second transaction, the first not acknowledged (R145). -/
theorem writeDisplay_of_second_nacked (i : Instr) (b : Buffer) {k : Nat} {s : State} (hp : phase s = .idle) (hk : k ≤ 4)
    (hnack : FirstNack s (k + 1)) :
    writeDisplay i b s = .next (after s i
      (ackedTxn s.cfg [s.cfg.dataCmdAuto] ++ nackedTxn s.cfg (s.cfg.baseAddr :: bufferBytes b) k) (k + 2)
      (.error (.busError 1 k))) := by
  rw [Nat.add_comm] at hnack
  have hfirst : AcksFirst s 1 := fun j hj => hnack.left j (by omega)
  have hsecond : FirstNack (afterTxn [s.cfg.dataCmdAuto] s) k := firstNack_afterTxn hnack
  have hlength : k < (s.cfg.baseAddr :: bufferBytes b).length := Nat.lt_succ_of_le hk
  rw [writeDisplay_of_first_acked i b hfirst, transact_of_nacked i 1 _ (phase_afterTxn _ s) hlength hsecond,
    after_afterTxn_of_acked [s.cfg.dataCmdAuto] i _ _ _ hp hfirst, List.length_singleton, Nat.add_comm 1]
  rfl

/-- An operation that writes the display from phase Idle has the three ends of R145. -/
theorem writesDisplay_of_exec {i : Instr} {b : Buffer} {s : State} (hp : phase s = .idle)
    (h : exec i s = writeDisplay i b s) : WritesDisplay i b s :=
  ⟨fun hack => h.trans (writeDisplay_of_acked i b hp hack),
    fun hnack => h.trans (transact_of_nacked i 0 _ hp Nat.one_pos hnack),
    fun _ hk hnack => h.trans (writeDisplay_of_second_nacked i b hp hk hnack)⟩

/-! ### Buffers and indices -/

/-- The encoder gives the buffer that holds the number, and there is one (R124). -/
theorem encodeNumber_of_isNumberBuffer {c : Config} {value : Int} {suppress : Bool} {b : Buffer} (h0 : 0 ≤ value)
    (h9 : value ≤ 9999) (hb : IsNumberBuffer c value.toNat suppress b) : encodeNumber c value suppress = .ok b := by
  obtain ⟨b', henc, hb'⟩ := exists_encodeNumber_isNumberBuffer c suppress h0 h9
  rw [henc, buffer_ext b' b fun j => (hb' j).trans (hb j).symm]

/-- A buffer is known by its bytes: one replaced, the others as they were (R149, R153). -/
theorem withByte_eq_of_bytes {b out : Buffer} {j : Fin 4} {x : Byte}
    (h : ∀ k, bufferByte out k = if k = j then x else bufferByte b k) : withByte b j x = out := by
  refine buffer_ext _ _ fun k => ?_
  rw [h k]
  split_ifs with hk
  · rw [hk, bufferByte_withByte_same]
  · exact bufferByte_withByte_of_ne b j k x hk

/-- Any other integer is no digit index (R154). -/
theorem digitIndex_out_of_range {index : Int} (h : index < 0 ∨ 3 < index) : digitIndex index = none :=
  if_neg (by omega)

theorem readBuffer_of_val {s : State} {b : Buffer} (h : s.buf = .val b) : readBuffer s = b := by
  rw [readBuffer, h]

/-! ### The session operations -/

theorem exec_sesInit_ready {s : State} (h : s.life = .ready) :
    exec .sesInit s = refuse .sesInit .alreadyInitialized s := if_pos h

theorem exec_sesInit_uninitialized {s : State} (h : s.life = .uninitialized) :
    exec .sesInit s = finish .sesInit .unit
      { driveDio true (driveClk true s) with
        bright := .val s.cfg.defaultBrightness, buf := .val zeroBuffer, life := .ready } :=
  if_neg (by simp [h])

/-- SES_SET_NUMBER of a number that four digits show writes its buffer (R146). -/
theorem exec_sesSetNumber_of_ok {value : Int} {blank : Bool} {b : Buffer} {s : State} (hr : s.life = .ready)
    (hp : phase s = .idle) (henc : encodeNumber s.cfg value blank = .ok b) :
    exec (.sesSetNumber value blank) s = writeDisplay (.sesSetNumber value blank) b s := by
  rw [exec, execSesSetNumber, commandGate_open _ s _ hr hp, henc]

/-- SES_SET_NUMBER of any other number ends before any line event (R146). -/
theorem exec_sesSetNumber_of_error {value : Int} {blank : Bool} {e : OpError} {s : State} (hr : s.life = .ready)
    (hp : phase s = .idle) (henc : encodeNumber s.cfg value blank = .error e) :
    exec (.sesSetNumber value blank) s = raise (.sesSetNumber value blank) e s := by
  rw [exec, execSesSetNumber, commandGate_open _ s _ hr hp, henc]

/-- SES_SET_NUMBER_IND of a number that four digits show writes its buffer with the masked bits forced (R149). -/
theorem exec_sesSetNumberInd_of_ok {value : Int} {enabled : Bool} {mask : Byte} {b : Buffer} {s : State}
    (hr : s.life = .ready) (hp : phase s = .idle) (henc : encodeNumber s.cfg value s.cfg.suppressInd = .ok b) :
    exec (.sesSetNumberInd value enabled mask) s = writeDisplay (.sesSetNumberInd value enabled mask)
      (withByte b s.cfg.indDigit (forceBits (bufferByte b s.cfg.indDigit) mask enabled)) s := by
  rw [exec, execSesSetNumberInd, commandGate_open _ s _ hr hp, henc]

/-- SES_SET_NUMBER_IND of any other number ends before any line event (R149). -/
theorem exec_sesSetNumberInd_of_error {value : Int} {enabled : Bool} {mask : Byte} {e : OpError} {s : State}
    (hr : s.life = .ready) (hp : phase s = .idle) (henc : encodeNumber s.cfg value s.cfg.suppressInd = .error e) :
    exec (.sesSetNumberInd value enabled mask) s = raise (.sesSetNumberInd value enabled mask) e s := by
  rw [exec, execSesSetNumberInd, commandGate_open _ s _ hr hp, henc]

/-- SES_SET_RAW_SEGMENT at a digit index writes `BUF` with that byte replaced (R153). -/
theorem exec_sesSetRawSegment_of_index {index : Int} {raw : Byte} {j : Fin 4} {s : State} (hr : s.life = .ready)
    (hp : phase s = .idle) (hj : digitIndex index = some j) :
    exec (.sesSetRawSegment index raw) s =
      writeDisplay (.sesSetRawSegment index raw) (withByte (readBuffer s) j raw) s := by
  rw [exec, execSesSetRawSegment, commandGate_open _ s _ hr hp, hj]

/-- SES_SET_RAW_SEGMENT at any other index ends before any line event (R154). -/
theorem exec_sesSetRawSegment_out_of_range {index : Int} {raw : Byte} {s : State} (hr : s.life = .ready)
    (hp : phase s = .idle) (hj : digitIndex index = none) :
    exec (.sesSetRawSegment index raw) s = raise (.sesSetRawSegment index raw) .invalidArgument s := by
  rw [exec, execSesSetRawSegment, commandGate_open _ s _ hr hp, hj]

/-- SES_SET_BRIGHTNESS of a level in range sends R157's byte, then stores the level. -/
theorem exec_sesSetBrightness_idle {level : Int} {s : State} (hr : s.life = .ready) (hp : phase s = .idle)
    (hok : brightnessOk s.cfg level = true) :
    exec (.sesSetBrightness level) s =
      transact (.sesSetBrightness level) 0 [displayControl true level] s
        fun s1 => finish (.sesSetBrightness level) .unit { s1 with bright := .val level } := by
  rw [exec, execSesSetBrightness, commandGate_open _ s _ hr hp, if_neg (by simp [hok]), displayByte_eq_displayControl]

/-- SES_SET_BRIGHTNESS of any other level ends before any line event (R157, R104). -/
theorem exec_sesSetBrightness_out_of_range {level : Int} {s : State} (hr : s.life = .ready) (hp : phase s = .idle)
    (hbad : brightnessOk s.cfg level = false) :
    exec (.sesSetBrightness level) s = raise (.sesSetBrightness level) .invalidArgument s := by
  rw [exec, execSesSetBrightness, commandGate_open _ s _ hr hp, if_pos hbad]

/-! ### The session's registers -/

@[simp] theorem lastOutcome_answer (i : Issued) (o : OpOutcome) (s : State) : lastOutcome (answer i o s) = some o := by
  simp [lastOutcome]

/-- The effects that leave `BRIGHT`: all but those of SES_INIT and of an acknowledged SES_SET_BRIGHTNESS (R30, R155). -/
theorem Effect.bright_cases {i : Instr} {s t : State} (h : Effect i s t) :
    t.bright = s.bright ∨ lastOutcome t = some (.ok .unit) ∧
      (i = .sesInit ∨ ∃ level, i = .sesSetBrightness level ∧ brightnessOk s.cfg level = true ∧ t.bright = .val level) := by
  cases h with
  | brightened bytes _ level hi hok => exact .inr ⟨lastOutcome_answer _ _ _, .inr ⟨level, hi, hok, rfl⟩⟩
  | initialised hi => exact .inr ⟨lastOutcome_answer _ _ _, .inl hi⟩
  | _ => exact .inl rfl

/-- The effects that leave `BUF`: all but those of SES_INIT and of an acknowledged display write (R30, R155). -/
theorem Effect.buf_cases {i : Instr} {s t : State} (h : Effect i s t) :
    t.buf = s.buf ∨ lastOutcome t = some (.ok .unit) ∧
      (i = .sesInit ∨ (∃ v f, i = .sesSetNumber v f) ∨ (∃ v e m, i = .sesSetNumberInd v e m) ∨
        ∃ j r, i = .sesSetRawSegment j r) := by
  cases h with
  | displayed _ _ _ _ _ hi => exact .inr ⟨lastOutcome_answer _ _ _, .inr hi⟩
  | initialised hi => exact .inr ⟨lastOutcome_answer _ _ _, .inl hi⟩
  | _ => exact .inl rfl

end Sys2Proof.Machine
end

section
/-! SUPPORT. The statements of 43_display_session.md. -/

namespace Sys2Proof.Claims

open Sys2Proof.Machine

/-- Settles O23: SES_INIT in a Ready session and in an uninitialised one, where the lines go to phase Idle. -/
theorem sesInitMeaning : Obligations.SesInitMeaning := by
  unfold Obligations.SesInitMeaning
  refine ⟨fun _ => rfl, fun s => ⟨exec_sesInit_ready, fun hu => ?_⟩⟩
  refine ⟨_, exec_sesInit_uninitialized hu, ?_, (phase_eq_idle_iff _).2 ⟨rfl, rfl, rfl⟩, ?_⟩
  · simp [answer, driveDio, driveClk, zeroBuffer]
  · rw [lastResult_answer, resultWord_unit]

/-- Settles O24: in range the buffer is the encoder's (`encodeNumber_of_isNumberBuffer`), written to the display
(`writesDisplay_of_exec`). -/
theorem sesSetNumberMeaning : Obligations.SesSetNumberMeaning := by
  unfold Obligations.SesSetNumberMeaning
  refine fun value blank => ⟨fun _ _ => by simp [encode, packWord_value], gated_of_commandGate fun _ => rfl, ?_⟩
  rintro s ⟨hr, hp⟩
  refine ⟨fun hout => ?_, fun h0 h9 b hb => ?_⟩
  · rw [exec_sesSetNumber_of_error hr hp (encodeNumber_out_of_range _ blank hout), raise, answer_eq_after]
  · exact writesDisplay_of_exec hp (exec_sesSetNumber_of_ok hr hp (encodeNumber_of_isNumberBuffer h0 h9 hb))

/-- Settles O25: in range the buffer is the encoder's with the indicator digit's byte forced (`withByte_eq_of_bytes`), written
to the display (`writesDisplay_of_exec`). -/
theorem sesSetNumberIndMeaning : Obligations.SesSetNumberIndMeaning := by
  unfold Obligations.SesSetNumberIndMeaning
  refine fun value enabled mask =>
    ⟨fun _ _ => by simp [encode, packWord_value], gated_of_commandGate fun _ => rfl, ?_⟩
  rintro s ⟨hr, hp⟩
  refine ⟨fun hout => ?_, fun h0 h9 b out hb hbytes => ?_⟩
  · rw [exec_sesSetNumberInd_of_error hr hp (encodeNumber_out_of_range _ _ hout), raise, answer_eq_after]
  · have hforced : withByte b s.cfg.indDigit (forceBits (bufferByte b s.cfg.indDigit) mask enabled) = out := by
      refine withByte_eq_of_bytes fun k => ?_
      rw [hbytes k]
      by_cases hk : k = s.cfg.indDigit
      · rw [hk, if_pos rfl, if_pos rfl, forceBits]
      · rw [if_neg hk, if_neg hk]
    refine writesDisplay_of_exec hp ?_
    rw [exec_sesSetNumberInd_of_ok hr hp (encodeNumber_of_isNumberBuffer h0 h9 hb), hforced]

/-- Settles O26: in range the buffer is `BUF` with one byte replaced (`withByte_eq_of_bytes`), written to the display
(`writesDisplay_of_exec`). -/
theorem sesSetRawSegmentMeaning : Obligations.SesSetRawSegmentMeaning := by
  unfold Obligations.SesSetRawSegmentMeaning
  refine fun index raw => ⟨fun _ _ => by simp [encode, packWord_value], gated_of_commandGate fun _ => rfl, ?_⟩
  rintro s ⟨hr, hp⟩
  refine ⟨fun hout => ?_, fun h0 h3 old out hbuf hbytes => ?_⟩
  · rw [exec_sesSetRawSegment_out_of_range hr hp (digitIndex_out_of_range hout), raise, answer_eq_after]
  · obtain ⟨j, hj, rfl⟩ := digitIndex_of_range h0 h3
    have hreplaced : withByte old j raw = out :=
      withByte_eq_of_bytes fun k => by simpa [Fin.ext_iff] using hbytes k
    refine writesDisplay_of_exec hp ?_
    rw [exec_sesSetRawSegment_of_index hr hp hj, readBuffer_of_val hbuf, hreplaced]

/-- Settles O27: out of range by `exec_sesSetBrightness_out_of_range`, in range for each end of the one transaction. -/
theorem sesSetBrightnessMeaning : Obligations.SesSetBrightnessMeaning := by
  unfold Obligations.SesSetBrightnessMeaning
  refine fun level => ⟨fun _ _ => by simp [encode, packWord_value], fun c hc => ?_, gated_of_commandGate fun _ => rfl, ?_⟩
  · obtain ⟨hmin, hmax, -⟩ := configOk_bounds hc
    exact ⟨hmin, hmax⟩
  rintro s ⟨hr, hp⟩
  refine ⟨fun hbad => ?_, fun hmin hmax hack => ?_, fun hmin hmax hnack => ?_⟩
  · have hout : ¬(s.cfg.brightMin ≤ level ∧ level ≤ s.cfg.brightMax) := by omega
    rw [exec_sesSetBrightness_out_of_range hr hp (decide_eq_false hout), raise, answer_eq_after]
  · have hall : AcksFirst s [displayControl true level].length := hack
    have hend := answer_afterTxn_of_acked (.sesSetBrightness level) (.ok .unit) hp hall
    rw [exec_sesSetBrightness_idle hr hp (decide_eq_true ⟨hmin, hmax⟩),
      transact_acked _ 0 _ (List.cons_ne_nil _ _) hall]
    exact congrArg (fun t : State => Host.Outcome.next { t with bright := .val level }) hend
  · rw [exec_sesSetBrightness_idle hr hp (decide_eq_true ⟨hmin, hmax⟩)]
    exact transact_of_nacked _ 0 _ hp Nat.one_pos hnack

/-- Settles O28, from the effects of an instruction (`Effect.bright_cases`, `Effect.buf_cases`). -/
theorem sessionStateChangesOnlyOnOk : Obligations.SessionStateChangesOnlyOnOk := by
  unfold Obligations.SessionStateChangesOnlyOnOk
  intro i s t h
  refine ⟨fun hne => ?_, (exec_effect h).buf_cases.resolve_left⟩
  obtain ⟨hok, hi⟩ := (exec_effect h).bright_cases.resolve_left hne
  refine ⟨hok, hi.imp_right ?_⟩
  rintro ⟨level, hi, hlevel, hbright⟩
  obtain ⟨hmin, hmax⟩ := of_decide_eq_true hlevel
  exact ⟨level, hi, hmin, hmax, hbright⟩

end Sys2Proof.Claims
end

section
/-! SUPPORT. How an operation ends. Where R173 has a reason the operation is refused for it, and where it has none the operation
completes: it records an outcome that R170 lets it have, the mark as it was. Past its checks a command or session operation
either rejects an argument or begins a transaction. -/

namespace Sys2Proof.Machine

open Sys2Proof.Claims

/-! ### Completion -/

/-- The outcome is no refusal, and its error, if it has one, is one that the operation may raise (R170). -/
def MayEnd (i : Instr) : OpOutcome → Prop
  | .ok _ => True
  | .error e => mayRaise i e = true ∧ ∀ n k : Nat, e = .busError n k → n ≤ 1 ∧ k ≤ 4
  | .refusal _ => False

theorem MayEnd.ne_refusal {i : Instr} {o : OpOutcome} (h : MayEnd i o) (r : RefuseReason) : o ≠ .refusal r := by
  rintro rfl
  exact h

/-- The errors but BusError: those raised before any line event (R174 step 4). -/
abbrev IsArgumentError (e : OpError) : Prop := e = .invalidArgument ∨ e = .outOfRange

theorem not_isArgumentError_busError (t k : Nat) : ¬IsArgumentError (.busError t k) := by
  simp [IsArgumentError]

theorem mayEnd_argument {i : Instr} {e : OpError} (he : IsArgumentError e) (hm : mayRaise i e = true) :
    MayEnd i (.error e) := by
  refine ⟨hm, ?_⟩
  rintro n k rfl
  exact absurd he (not_isArgumentError_busError n k)

theorem mayEnd_busError {i : Instr} {t k : Nat} (hm : mayRaise i (.busError t k) = true) (ht : t ≤ 1) (hk : k ≤ 4) :
    MayEnd i (.error (.busError t k)) := by
  refine ⟨hm, ?_⟩
  rintro n k' h
  cases h
  exact ⟨ht, hk⟩

/-- The operation `i` from `s` answers a next state, with an outcome it may end with on record and the mark as in `s`. -/
def Completes (i : Instr) (s : State) (out : Host.Outcome State Fault Refusal) : Prop :=
  ∃ (t : State) (o : OpOutcome), out = .next t ∧ t.history = s.history ++ [(.op i, o)] ∧ t.refused = s.refused ∧ MayEnd i o

/-- Recording an outcome completes an operation that has left the record and the mark so far. -/
theorem completes_answer {i : Instr} {o : OpOutcome} {s u : State} (hh : u.history = s.history)
    (hm : u.refused = s.refused) (ho : MayEnd i o) : Completes i s (.next (answer (.op i) o u)) :=
  ⟨_, o, rfl, by rw [answer_history, hh], hm, ho⟩

/-- A transaction completes its operation if what follows it does (R102, R108). -/
theorem completes_transact {i : Instr} {t : Nat} {bytes : List Byte} {s u : State}
    {andThen : State → Host.Outcome State Fault Refusal} (hne : bytes ≠ []) (hlen : bytes.length ≤ 5) (ht : t ≤ 1)
    (hbus : ∀ k, mayRaise i (.busError t k) = true) (hh : u.history = s.history) (hm : u.refused = s.refused)
    (hthen : Completes i s (andThen (afterTxn bytes u))) : Completes i s (transact i t bytes u andThen) := by
  rcases transact_cases i t bytes u andThen hne with ⟨he, -⟩ | ⟨k, hk, -, -, he⟩
  · rwa [he]
  · rw [he]
    exact completes_answer hh hm (mayEnd_busError (hbus k) ht (by omega))

/-! ### Command and session operations past their checks -/

/-- What a command or session operation answers past its checks (R174 steps 4 and 5): it rejects an argument, or it begins a
transaction of at most five bytes and completes after it. -/
inductive CommandEnd (i : Instr) (s : State) : Host.Outcome State Fault Refusal → Prop
  | rejected (e : OpError) (he : IsArgumentError e) (hm : mayRaise i e = true) : CommandEnd i s (raise i e s)
  | sent (bytes : List Byte) (andThen : State → Host.Outcome State Fault Refusal) (hne : bytes ≠ [])
      (hlen : bytes.length ≤ 5) (hthen : Completes i s (andThen (afterTxn bytes s))) :
      CommandEnd i s (transact i 0 bytes s andThen)

/-- Every command and session operation may raise BusError (R170). -/
theorem mayRaise_busError {i : Instr} (h : isCommandOrSession i = true) (t k : Nat) :
    mayRaise i (.busError t k) = true := by
  cases i with
  | cmdSetDataMode | cmdSetBrightness | cmdWriteDigits | sesSetNumber | sesSetNumberInd | sesSetRawSegment
  | sesSetBrightness => rfl
  | _ => cases h

/-- A command of one transaction. -/
theorem CommandEnd.sent_finish {i : Instr} {s : State} (bytes : List Byte) (hne : bytes ≠ []) (hlen : bytes.length ≤ 5) :
    CommandEnd i s (transact i 0 bytes s (finish i .unit)) :=
  .sent bytes _ hne hlen (completes_answer rfl rfl trivial)

/-- A display write (R145). -/
theorem commandEnd_writeDisplay {i : Instr} {b : Buffer} {s : State} (h : isCommandOrSession i = true) :
    CommandEnd i s (writeDisplay i b s) := by
  refine .sent [s.cfg.dataCmdAuto] _ (by simp) (by simp) ?_
  exact completes_transact (by simp) (by simp [bufferBytes]) le_rfl (mayRaise_busError h 1) rfl rfl
    (completes_answer rfl rfl trivial)

/-- Every command and session operation but SES_INIT, in a Ready session in phase Idle (R100 to R106, R146 to R157). -/
theorem exec_commandEnd {i : Instr} {s : State} (hi : isCommandOrSession i = true) (hr : s.life = .ready)
    (hp : phase s = .idle) : CommandEnd i s (exec i s) := by
  cases i with
  | cmdSetDataMode auto =>
    rw [exec_cmdSetDataMode_idle auto hr hp]
    exact .sent_finish _ (by simp) (by simp)
  | cmdSetBrightness level on =>
    cases hok : brightnessOk s.cfg level with
    | true =>
      rw [exec_cmdSetBrightness_idle on hr hp hok]
      exact .sent_finish _ (by simp) (by simp)
    | false =>
      rw [exec_cmdSetBrightness_out_of_range on hr hp hok]
      exact .rejected _ (.inl rfl) rfl
  | cmdWriteDigits base segments =>
    rw [exec_cmdWriteDigits_idle base segments hr hp]
    exact .sent_finish _ (by simp) (by simp [bufferBytes])
  | sesSetNumber value blank =>
    cases henc : encodeNumber s.cfg value blank with
    | ok b =>
      rw [exec_sesSetNumber_of_ok hr hp henc]
      exact commandEnd_writeDisplay hi
    | error e =>
      obtain rfl := encodeNumber_error henc
      rw [exec_sesSetNumber_of_error hr hp henc]
      exact .rejected _ (.inr rfl) rfl
  | sesSetNumberInd value enabled mask =>
    cases henc : encodeNumber s.cfg value s.cfg.suppressInd with
    | ok b =>
      rw [exec_sesSetNumberInd_of_ok hr hp henc]
      exact commandEnd_writeDisplay hi
    | error e =>
      obtain rfl := encodeNumber_error henc
      rw [exec_sesSetNumberInd_of_error hr hp henc]
      exact .rejected _ (.inr rfl) rfl
  | sesSetRawSegment index raw =>
    cases hj : digitIndex index with
    | some j =>
      rw [exec_sesSetRawSegment_of_index hr hp hj]
      exact commandEnd_writeDisplay hi
    | none =>
      rw [exec_sesSetRawSegment_out_of_range hr hp hj]
      exact .rejected _ (.inl rfl) rfl
  | sesSetBrightness level =>
    cases hok : brightnessOk s.cfg level with
    | true =>
      rw [exec_sesSetBrightness_idle hr hp hok]
      exact .sent _ _ (by simp) (by simp) (completes_answer rfl rfl trivial)
    | false =>
      rw [exec_sesSetBrightness_out_of_range hr hp hok]
      exact .rejected _ (.inl rfl) rfl
  | _ => cases hi

/-- Either end completes the operation: its errors are those that R170 gives it. -/
theorem CommandEnd.completes {i : Instr} {s : State} {out : Host.Outcome State Fault Refusal} (h : CommandEnd i s out)
    (hi : isCommandOrSession i = true) : Completes i s out := by
  cases h with
  | rejected e he hm => exact completes_answer rfl rfl (mayEnd_argument he hm)
  | sent bytes andThen hne hlen hthen =>
    exact completes_transact hne hlen (Nat.zero_le 1) (mayRaise_busError hi 0) rfl rfl hthen

/-- If the device denies its next answer, a transaction from phase Idle ends its operation at its first byte (R102, R181). -/
theorem transact_of_denied (i : Instr) {bytes : List Byte} {s : State}
    (andThen : State → Host.Outcome State Fault Refusal) (hne : bytes ≠ []) (hp : phase s = .idle)
    (hnack : FirstNack s 0) : ∃ b, transact i 0 bytes s andThen =
      .next (after s i [.start, .byte b (!s.cfg.ackLevel), .stop] 1 (.error (.busError 0 0))) :=
  ⟨bytes.getD 0 0, transact_of_nacked i 0 andThen hp (List.length_pos_of_ne_nil hne) hnack⟩

/-! ### The encoder -/

theorem encodeDigit_error {c : Config} {value : Int} {blank : Bool} {e : OpError}
    (h : encodeDigit c value blank = .error e) : e = .invalidArgument := by
  unfold encodeDigit at h
  split at h
  · cases h
  · split at h <;> cases h
    rfl

theorem applyIndicator_error {b : Buffer} {d p : Int} {enabled : Bool} {e : OpError}
    (h : applyIndicator b d p enabled = .error e) : e = .invalidArgument := by
  unfold applyIndicator at h
  split at h <;> cases h
  rfl

theorem mayEnd_encoderOutcome {α : Type} {i : Instr} {value : α → OpValue} {x : Except OpError α}
    (h : ∀ e, x = .error e → IsArgumentError e ∧ mayRaise i e = true) : MayEnd i (encoderOutcome value x) := by
  cases x with
  | ok a => trivial
  | error e =>
    obtain ⟨he, hm⟩ := h e rfl
    exact mayEnd_argument he hm

/-- An encoder operation completes in every state (R123). -/
theorem exec_encoder_completes {i : Instr} (h : isEncoder i = true) (s : State) : Completes i s (exec i s) := by
  cases i with
  | encDigit value blank =>
    rw [exec_encDigit, ← answer_eq_after]
    refine completes_answer rfl rfl (mayEnd_encoderOutcome fun e he => ?_)
    obtain rfl := encodeDigit_error he
    exact ⟨.inl rfl, rfl⟩
  | encNumber value suppress =>
    rw [exec_encNumber, ← answer_eq_after]
    refine completes_answer rfl rfl (mayEnd_encoderOutcome fun e he => ?_)
    obtain rfl := encodeNumber_error he
    exact ⟨.inr rfl, rfl⟩
  | encApplyIndicator b d p enabled =>
    rw [exec_encApplyIndicator, ← answer_eq_after]
    refine completes_answer rfl rfl (mayEnd_encoderOutcome fun e he => ?_)
    obtain rfl := applyIndicator_error he
    exact ⟨.inl rfl, rfl⟩
  | _ => cases h

/-! ### Refusals -/

/-- What R173 and R174 say of an answer: the refusal for the first reason that holds, or completion where none does. -/
def AnswersByReason (i : Instr) (s : State) (out : Host.Outcome State Fault Refusal) : Prop :=
  match refusalReason i s with
  | some r => out = .next (refusedBy (.op i) r s)
  | none => Completes i s out

theorem answersByReason_of_refused {i : Instr} {s : State} {r : RefuseReason} {out : Host.Outcome State Fault Refusal}
    (hr : refusalReason i s = some r) (h : out = refuse i r s) : AnswersByReason i s out := by
  rw [AnswersByReason, hr]
  exact h

theorem answersByReason_of_completes {i : Instr} {s : State} {out : Host.Outcome State Fault Refusal}
    (hr : refusalReason i s = none) (h : Completes i s out) : AnswersByReason i s out := by
  rw [AnswersByReason, hr]
  exact h

/-- An operation that ends in Ok completes, if no reason holds. -/
theorem answersByReason_of_finish {i : Instr} {v : OpValue} {s u : State} {out : Host.Outcome State Fault Refusal}
    (hr : refusalReason i s = none) (h : out = finish i v u) (hh : u.history = s.history)
    (hm : u.refused = s.refused) : AnswersByReason i s out := by
  rw [h]
  exact answersByReason_of_completes hr (completes_answer hh hm trivial)

theorem life_ne_ready_iff (l : Life) : l ≠ .ready ↔ l = .uninitialized := by
  cases l <;> simp

/-- The reasons that a byte write has (R84, R141). -/
theorem refusalReason_byteWrite {i : Instr} (hi : isByteWrite i = true) (s : State) :
    refusalReason i s = if s.life ≠ .ready then some .notInitialized
      else if phase s ≠ .opened then some .byteOutsideTransaction else none := by
  cases i <;> simp_all [refusalReason, isEncoder, isByteWrite, isCommandOrSession, life_ne_ready_iff]

/-- The reasons that a command or session operation but SES_INIT has (R109, R141, R144). -/
theorem refusalReason_commandOrSession {i : Instr} (hi : isCommandOrSession i = true) (s : State) :
    refusalReason i s = if s.life ≠ .ready then some .notInitialized
      else if phase s ≠ .idle then some .commandInOpenTransaction else none := by
  cases i <;> simp_all [refusalReason, isEncoder, isByteWrite, isCommandOrSession, life_ne_ready_iff]

/-- The reasons that BUS_START has (R83, R141). -/
theorem refusalReason_busStart (s : State) :
    refusalReason .busStart s = if s.life ≠ .ready then some .notInitialized
      else if phase s ≠ .idle then some .startInOpenTransaction else none := by
  simp [refusalReason, isEncoder, isByteWrite, isCommandOrSession, life_ne_ready_iff]

/-- The reason that BUS_STOP has (R88, R141). -/
theorem refusalReason_busStop (s : State) :
    refusalReason .busStop s = if s.life ≠ .ready then some .notInitialized else none := by
  simp [refusalReason, isEncoder, isByteWrite, isCommandOrSession, life_ne_ready_iff]

/-- The reason that SES_INIT has (R142). -/
theorem refusalReason_sesInit (s : State) :
    refusalReason .sesInit s = if s.life = .ready then some .alreadyInitialized else none := by
  simp [refusalReason, isEncoder]

/-! ### Each family answers by the reasons -/

theorem exec_busStart_answersByReason (s : State) : AnswersByReason .busStart s (exec .busStart s) := by
  by_cases hr : s.life = .ready
  · by_cases hp : phase s = .idle
    · exact answersByReason_of_finish (by simp [refusalReason_busStart, hr, hp]) (execBusStart_idle hr hp) rfl rfl
    · exact answersByReason_of_refused (by simp [refusalReason_busStart, hr, hp]) (execBusStart_not_idle hr hp)
  · exact answersByReason_of_refused (by simp [refusalReason_busStart, hr]) (if_pos hr)

theorem exec_busStop_answersByReason (s : State) : AnswersByReason .busStop s (exec .busStop s) := by
  by_cases hr : s.life = .ready
  · exact answersByReason_of_finish (by simp [refusalReason_busStop, hr]) (execBusStop_ready hr) rfl rfl
  · exact answersByReason_of_refused (by simp [refusalReason_busStop, hr]) (if_pos hr)

theorem exec_sesInit_answersByReason (s : State) : AnswersByReason .sesInit s (exec .sesInit s) := by
  cases hl : s.life with
  | ready => exact answersByReason_of_refused (by simp [refusalReason_sesInit, hl]) (exec_sesInit_ready hl)
  | uninitialized =>
    exact answersByReason_of_finish (by simp [refusalReason_sesInit, hl]) (exec_sesInit_uninitialized hl) rfl rfl

theorem exec_byteWrite_answersByReason {i : Instr} (hi : isByteWrite i = true) (s : State) :
    AnswersByReason i s (exec i s) := by
  obtain ⟨b, hexec⟩ := exists_exec_eq_byteWrite hi s.cfg
  rw [hexec s rfl]
  rcases byteWrite_cases i b s with ⟨hl, he⟩ | ⟨hr, hp, he⟩ | ⟨hr, hp, he⟩
  · exact answersByReason_of_refused (by simp [refusalReason_byteWrite hi, hl]) he
  · exact answersByReason_of_refused (by simp [refusalReason_byteWrite hi, hr, hp]) he
  · exact answersByReason_of_finish (by simp [refusalReason_byteWrite hi, hr, hp]) he rfl rfl

/-- Every command and session operation but SES_INIT stands behind the one gate (R109, R141, R144). -/
theorem exists_exec_eq_commandGate {i : Instr} (hi : isCommandOrSession i = true) (s : State) :
    ∃ body, exec i s = commandGate i s body := by
  cases i with
  | cmdSetDataMode | cmdSetBrightness | cmdWriteDigits | sesSetNumber | sesSetNumberInd | sesSetRawSegment
  | sesSetBrightness => exact ⟨_, rfl⟩
  | _ => cases hi

theorem exec_commandOrSession_answersByReason {i : Instr} (hi : isCommandOrSession i = true) (s : State) :
    AnswersByReason i s (exec i s) := by
  obtain ⟨body, hexec⟩ := exists_exec_eq_commandGate hi s
  rcases commandGate_cases i s body with ⟨hl, he⟩ | ⟨hr, hp, he⟩ | ⟨hr, hp, -⟩
  · exact answersByReason_of_refused (by simp [refusalReason_commandOrSession hi, hl]) (hexec.trans he)
  · exact answersByReason_of_refused (by simp [refusalReason_commandOrSession hi, hr, hp]) (hexec.trans he)
  · exact answersByReason_of_completes (by simp [refusalReason_commandOrSession hi, hr, hp])
      ((exec_commandEnd hi hr hp).completes hi)

/-- The families of operations, with BUS_START, BUS_STOP and SES_INIT apart. -/
theorem instr_families (i : Instr) : isEncoder i = true ∨ isByteWrite i = true ∨ isCommandOrSession i = true ∨
    i = .busStart ∨ i = .busStop ∨ i = .sesInit := by
  cases i <;> simp [isEncoder, isByteWrite, isCommandOrSession]

/-- Every operation in every state is refused for the first reason that holds, or completes (R170, R173, R174). -/
theorem exec_answersByReason (i : Instr) (s : State) : AnswersByReason i s (exec i s) := by
  rcases instr_families i with hi | hi | hi | rfl | rfl | rfl
  · exact answersByReason_of_completes (by simp [refusalReason, hi]) (exec_encoder_completes hi s)
  · exact exec_byteWrite_answersByReason hi s
  · exact exec_commandOrSession_answersByReason hi s
  · exact exec_busStart_answersByReason s
  · exact exec_busStop_answersByReason s
  · exact exec_sesInit_answersByReason s

theorem exec_of_refusalReason {i : Instr} {s : State} {r : RefuseReason} (hr : refusalReason i s = some r) :
    exec i s = .next (refusedBy (.op i) r s) := by
  have h := exec_answersByReason i s
  rwa [AnswersByReason, hr] at h

theorem exec_completes {i : Instr} {s : State} (hr : refusalReason i s = none) : Completes i s (exec i s) := by
  have h := exec_answersByReason i s
  rwa [AnswersByReason, hr] at h

/-! ### The errors of an effect -/

theorem lastOutcome_of_history {s t : State} {j : Issued} {o : OpOutcome} (h : t.history = s.history ++ [(j, o)]) :
    lastOutcome t = some o := by
  simp [lastOutcome, h]

/-- An effect that ends in an error is an argument error, which leaves all but the record, or BusError, after which the phase
is Idle, the session's registers are as they were, and the last group is the stop (R102, R175). -/
theorem Effect.error_cases {i : Instr} {s t : State} {e : OpError} (h : Effect i s t)
    (he : lastOutcome t = some (.error e)) :
    (IsArgumentError e ∧ t = answer (.op i) (.error e) s) ∨
    (¬IsArgumentError e ∧ phase t = .idle ∧ t.buf = s.buf ∧ t.bright = s.bright ∧ t.life = s.life ∧
      ∃ gs : List Group, t.trace = s.trace ++ groupEvents s.cfg.dioRestore (gs ++ [.stop])) := by
  cases h with
  | argument e' harg =>
    obtain rfl : e' = e := by simpa using he
    exact .inl ⟨harg, rfl⟩
  | failed bytes =>
    obtain rfl : OpError.busError _ _ = e := by simpa using he
    exact .inr ⟨not_isArgumentError_busError _ _, phase_afterTxn bytes s, rfl, rfl, rfl, .start :: byteGroups s 0 bytes, rfl⟩
  | failedSecond bytes more =>
    obtain rfl : OpError.busError _ _ = e := by simpa using he
    refine .inr ⟨not_isArgumentError_busError _ _, phase_afterTxn more _, rfl, rfl, rfl,
      (.start :: byteGroups s 0 bytes ++ [.stop]) ++ .start :: byteGroups (afterTxn bytes s) 0 more, ?_⟩
    simp [afterTxn, groupEvents]
  | _ => simp [lastOutcome] at he

end Sys2Proof.Machine
end

section
/-! SUPPORT. The statements of 60_exceptions.md. -/

namespace Sys2Proof.Claims

open Sys2Proof.Machine

/-- Settles O13, for each end of an operation past its checks (`exec_commandEnd`): the transaction that it begins ends at its
first byte (`transact_of_denied`). -/
theorem deniedFirstByteEndsTheOperation : Obligations.DeniedFirstByteEndsTheOperation := by
  unfold Obligations.DeniedFirstByteEndsTheOperation
  rintro i s hi ⟨hr, hp⟩ hnack
  have hend := exec_commandEnd hi hr hp
  generalize exec i s = out at hend ⊢
  cases hend with
  | rejected e he =>
    rw [raise, answer_eq_after]
    rcases he with rfl | rfl
    · exact .inr (.inl rfl)
    · exact .inr (.inr rfl)
  | sent bytes andThen hne =>
    obtain ⟨b, hb⟩ := transact_of_denied i andThen hne hp hnack
    exact .inl ⟨b, hb, hp⟩

/-- Settles O29, from the answer of every operation in every state (`exec_answersByReason`). -/
theorem refusedExactlyForTheReasons : Obligations.RefusedExactlyForTheReasons := by
  unfold Obligations.RefusedExactlyForTheReasons
  refine fun i s => ⟨fun r hr => exec_of_refusalReason hr, fun hnone => ?_⟩
  obtain ⟨t, o, hexec, hhist, hmark, hend⟩ := exec_completes hnone
  exact ⟨t, o, hexec, hhist, hmark, hend.ne_refusal⟩

/-- Settles O30: an operation that ends in an error was not refused, so it completed with an error it may raise
(`exec_answersByReason`). -/
theorem errorsOnlyFromTheirOperations : Obligations.ErrorsOnlyFromTheirOperations := by
  unfold Obligations.ErrorsOnlyFromTheirOperations
  intro i s t e h he
  cases hreason : refusalReason i s with
  | some r =>
    rw [exec_of_refusalReason hreason] at h
    cases h
    rw [lastOutcome_of_history rfl] at he
    cases he
  | none =>
    obtain ⟨t', o, hexec, hhist, -, hend⟩ := exec_completes hreason
    rw [h] at hexec
    cases hexec
    rw [lastOutcome_of_history hhist] at he
    cases he
    exact hend

/-- Settles O31, from the effects of an instruction that end in an error (`Effect.error_cases`). -/
theorem errorsArePrecise : Obligations.ErrorsArePrecise := by
  unfold Obligations.ErrorsArePrecise
  intro i s t e h he
  rcases (exec_effect h).error_cases he with ⟨harg, rfl⟩ | ⟨hbus, hprecise⟩
  · refine ⟨fun _ => rfl, ?_⟩
    rintro n k rfl
    exact absurd harg (not_isArgumentError_busError n k)
  · exact ⟨fun harg => absurd harg hbus, fun _ _ _ => hprecise⟩

end Sys2Proof.Claims
end

section
/-! SUPPORT. The events and the transitions of the groups and of the transactions, the step with nothing issued, and what is on
record before SES_INIT. -/

namespace Sys2Proof.Machine

open Sys2Proof.Claims

/-! ### The transitions and the entries of the groups -/

@[simp] theorem transitions_append (xs ys : List Event) : transitions (xs ++ ys) = transitions xs + transitions ys :=
  List.countP_append

@[simp] theorem groupEvents_nil (restore : Level) : groupEvents restore [] = [] := rfl

@[simp] theorem groupEvents_cons (restore : Level) (g : Group) (gs : List Group) :
    groupEvents restore (g :: gs) = g.events restore ++ groupEvents restore gs := rfl

/-- A START group has three transitions and no sample (R83). -/
@[simp] theorem transitions_start (restore : Level) : transitions (Group.start.events restore) = 3 := rfl

/-- Of a byte's events all but the sample are transitions: three for each bit and five for the acknowledgement (R84). -/
@[simp] theorem transitions_byte (restore : Level) (b : Byte) (v : Level) :
    transitions ((Group.byte b v).events restore) = 29 := rfl

@[simp] theorem transitions_stop (restore : Level) : transitions (Group.stop.events restore) = 4 := rfl
@[simp] theorem transitions_init (restore : Level) : transitions (Group.init.events restore) = 2 := rfl
@[simp] theorem length_start (restore : Level) : (Group.start.events restore).length = 3 := rfl
@[simp] theorem length_byte (restore : Level) (b : Byte) (v : Level) : ((Group.byte b v).events restore).length = 30 := rfl
@[simp] theorem length_stop (restore : Level) : (Group.stop.events restore).length = 4 := rfl

/-! ### The transitions and the entries of a transaction -/

/-- Each acknowledged byte adds the transitions of one BYTE group (R213). -/
theorem transitions_ackedBytes (c : Config) (restore : Level) (bytes : List Byte) :
    transitions (groupEvents restore (ackedBytes c bytes)) = 29 * bytes.length := by
  induction bytes with
  | nil => rfl
  | cons b rest ih =>
    have hcons : ackedBytes c (b :: rest) = .byte b c.ackLevel :: ackedBytes c rest := rfl
    rw [hcons, groupEvents_cons, transitions_append, transitions_byte, ih, List.length_cons]
    omega

/-- Each acknowledged byte adds the entries of one BYTE group (R84). -/
theorem length_ackedBytes (c : Config) (restore : Level) (bytes : List Byte) :
    (groupEvents restore (ackedBytes c bytes)).length = 30 * bytes.length := by
  simp [groupEvents, ackedBytes, List.length_flatMap, Function.comp_def, Nat.mul_comm]

/-- A transaction is START, its bytes and STOP (R102, R213). -/
theorem transitions_ackedTxn (c : Config) (restore : Level) (bytes : List Byte) :
    transitions (groupEvents restore (ackedTxn c bytes)) = 7 + 29 * bytes.length := by
  simp only [ackedTxn, List.cons_append, groupEvents_cons, groupEvents_append, groupEvents_nil, List.append_nil,
    transitions_append, transitions_start, transitions_ackedBytes, transitions_stop]
  omega

theorem length_ackedTxn (c : Config) (restore : Level) (bytes : List Byte) :
    (groupEvents restore (ackedTxn c bytes)).length = 7 + 30 * bytes.length := by
  simp only [ackedTxn, List.cons_append, groupEvents_cons, groupEvents_append, groupEvents_nil, List.append_nil,
    List.length_append, length_start, length_ackedBytes, length_stop]
  omega

/-- A transaction that ends at byte `k` has sent `k` acknowledged bytes and the one that was not (R102). -/
theorem length_nackedTxn (c : Config) (restore : Level) {bytes : List Byte} {k : Nat} (hk : k < bytes.length) :
    (groupEvents restore (nackedTxn c bytes k)).length = 3 + 30 * (k + 1) + 4 := by
  have htake : (bytes.take k).length = k := List.length_take_of_le hk.le
  simp only [nackedTxn, List.cons_append, groupEvents_cons, groupEvents_append, groupEvents_nil, List.append_nil,
    List.length_append, length_start, length_ackedBytes, htake, length_byte, length_stop]
  omega

/-! ### The step with nothing issued -/

/-- With nothing issued there is nothing to take (R201). -/
theorem fetch_of_nil {s : State} (h : s.inbox = []) : fetch s = .waiting := by
  simp [fetch, h]

/-! ### What is on record before SES_INIT -/

/-- With no refusal on the mark and LIFE still Uninitialized, all that is on record is encoder operations (R205). -/
def OnlyEncodersBeforeInit (s : State) : Prop :=
  s.refused = false → s.life = .uninitialized → ∀ e ∈ s.history, ∃ i : Instr, e.1 = .op i ∧ isEncoder i = true

/-- Before SES_INIT the spec refuses all but the encoder operations and SES_INIT itself (R141, R173). -/
theorem isEncoder_or_sesInit_of_uninitialized {i : Instr} {s : State} (hu : s.life = .uninitialized)
    (hr : refusalReason i s = none) : isEncoder i = true ∨ i = .sesInit := by
  by_contra hne
  obtain ⟨henc, hinit⟩ := not_or.1 hne
  simp [refusalReason, henc, hinit, hu] at hr

/-- An instruction that leaves the mark clear and the session Uninitialized is an encoder operation, and the session was
Uninitialized before it (R141, R205). -/
theorem isEncoder_of_exec_clean {i : Instr} {s t : State} (h : exec i s = .next t) (hm : t.refused = false)
    (hl : t.life = .uninitialized) : s.life = .uninitialized ∧ isEncoder i = true := by
  have hu : s.life = .uninitialized := by
    rcases (exec_effect h).life_cases with hsame | ⟨-, hready⟩
    · exact hsame.symm.trans hl
    · rw [hready] at hl; cases hl
  cases hr : refusalReason i s with
  | some r =>
    rw [exec_of_refusalReason hr] at h
    cases h
    cases hm
  | none =>
    rcases isEncoder_or_sesInit_of_uninitialized hu hr with henc | rfl
    · exact ⟨hu, henc⟩
    · rw [exec_sesInit_uninitialized hu] at h
      cases h
      cases hl

/-- Every instruction keeps that only encoder operations are on record before SES_INIT (R205). -/
theorem OnlyEncodersBeforeInit.exec {i : Instr} {s t : State} (hs : OnlyEncodersBeforeInit s) (h : exec i s = .next t) :
    OnlyEncodersBeforeInit t := by
  intro hm hl e he
  obtain ⟨hu, henc⟩ := isEncoder_of_exec_clean h hm hl
  obtain ⟨o, hh, hmark⟩ := (exec_effect h).recorded
  have hclear : s.refused = false := by
    by_contra hset
    rw [hmark.2 (.inl (Bool.eq_true_of_not_eq_false hset))] at hm
    cases hm
  rw [hh] at he
  rcases List.mem_append.1 he with hold | hnew
  · exact hs hclear hu e hold
  · rw [List.mem_singleton.1 hnew]
    exact ⟨i, rfl, henc⟩

/-- Every step keeps that only encoder operations are on record before SES_INIT (R205). -/
theorem step_preserves_onlyEncodersBeforeInit {s t : State} (hs : OnlyEncodersBeforeInit s) (h : StepsTo s t) :
    OnlyEncodersBeforeInit t := by
  rcases step_cases h with ⟨-, rfl⟩ | ⟨r, rest, i, -, -, he⟩ | ⟨w, rest, r, -, -, rfl⟩
  · exact hs
  · exact OnlyEncodersBeforeInit.exec (s := { s with inbox := rest }) hs he
  · intro hm
    cases hm

end Sys2Proof.Machine
end

section
/-! SUPPORT. The statements of 70_reset_and_hazards.md. -/

namespace Sys2Proof.Claims

open Sys2Proof.Machine

/-- Settles O48, by induction over the run: nothing is on record at power-on, and a step that leaves the mark clear and the
session Uninitialized records an encoder operation (`isEncoder_of_exec_clean`). -/
theorem cleanRunsInitialiseFirst : Obligations.CleanRunsInitialiseFirst := by
  unfold Obligations.CleanRunsInitialiseFirst
  rintro c answers t ⟨hrun, hclean⟩ hlife
  have hstart : OnlyEncodersBeforeInit { State.powerOn c with draws := answers } := fun _ _ _ he => by cases he
  exact hrun.preserves (fun _ _ hu => hu) (fun _ _ hu h => step_preserves_onlyEncodersBeforeInit hu h) hstart hclean hlife

/-- Settles O50, from the counts of each group, and of the bytes between START and STOP. -/
theorem transitionCounts : Obligations.TransitionCounts := by
  unfold Obligations.TransitionCounts
  intro c b s bytes k
  exact ⟨transitions_start _, transitions_byte _ b s, transitions_stop _, transitions_init _,
    transitions_ackedTxn c _ bytes, length_ackedTxn c _ bytes, length_nackedTxn c _⟩

/-- Settles O40: with nothing issued the fetch waits (`fetch_of_nil`). -/
theorem waitsForTheHost : Obligations.WaitsForTheHost := by
  unfold Obligations.WaitsForTheHost
  intro s h
  rw [step, fetch_of_nil h]

end Sys2Proof.Claims
end

section
/-! SUPPORT. The wire commands as byte writes. -/

namespace Sys2Proof.Machine

open Sys2Proof.Claims

/-- An instruction that is carried by a wire byte writes that byte (log entry 3; R71 to R73). -/
theorem exec_eq_byteWrite_of_encode {i : Instr} {b : Byte} {s : State} (h : encode s.cfg i = .wire b) :
    exec i s = byteWrite i b s := by
  cases i <;> simp only [encode, reduceCtorEq, Request.wire.injEq] at h <;> subst b
  case dataCmdAuto => rfl
  case dataCmdFixed => rfl
  case displayCtrl on level => rfl
  case addrCmd a => rfl

/-- In an open transaction a byte write appends one BYTE group, takes one sample, answers whether that was the acknowledgement,
and leaves the lines as the group leaves them (R84). -/
theorem byteWrite_opened_eq_after (i : Instr) (b : Byte) {s : State} (hp : phase s = .opened) :
    byteWrite i b s = .next { after s i [.byte b (drawAt s 0)] 1 (.ok (.ack (drawAt s 0 == s.cfg.ackLevel))) with
      clkOut := .val false, dioOe := .val true, dioOut := .val s.cfg.dioRestore } := by
  rw [byteWrite_opened i b hp]
  simp [finish, answer, afterByte, after]

end Sys2Proof.Machine
end

section
/-! SUPPORT. The statement of the wire commands. -/

namespace Sys2Proof.Claims

open Sys2Proof.Machine

/-- Settles O7: each command's wire byte is the stated one (`displayByte_eq_ofNat`, `addressByte_eq_ofNat`), and what a wire
byte carries is one byte write of it (`exec_eq_byteWrite_of_encode`), with the cases of a byte write's checks. -/
theorem wireCommandsWriteTheirByte : Obligations.WireCommandsWriteTheirByte := by
  unfold Obligations.WireCommandsWriteTheirByte
  intro s i b hbyte
  have henc : encode s.cfg i = .wire b := by
    rcases hbyte with ⟨rfl, rfl⟩ | ⟨rfl, rfl⟩ | ⟨on, level, rfl, -, rfl⟩ | ⟨a, rfl, rfl⟩
    · rfl
    · rfl
    · exact congrArg Request.wire (displayByte_eq_ofNat on level)
    · exact congrArg Request.wire (addressByte_eq_ofNat a)
  rw [exec_eq_byteWrite_of_encode henc]
  exact ⟨henc, byteWrite_uninitialized i b, byteWrite_not_opened i b, fun _ => byteWrite_opened_eq_after i b⟩

end Sys2Proof.Claims
end
